-- ==== Sys2Proof/Word.lean ====
section
/-! DEFINITION. The data widths of the CORE (00_scope.md R5, R6): everything is unsigned. -/

namespace Sys2Proof

/-- A general register, a timer, a memory cell or an immediate `kk`: 8 bits (R5). -/
abbrev Byte := BitVec 8

/-- PC, I, a stack slot or an instruction word: 16 bits (R5, R120). -/
abbrev Word := BitVec 16

/-- A 12-bit address immediate `nnn` (R121). -/
abbrev Addr12 := BitVec 12

/-- The name of a general register, V0 to VF (R30). -/
abbrev Reg := Fin 16

end Sys2Proof
end

