-- ==== Sys2Proof/Syntax.lean ====
section
/-! DEFINITION. The 34 instruction forms (30_encoding.md R134), one constructor a row, in the table's
order. An operand is the field the form uses (R121, R122); the bits a form does not examine (R130)
are no operand. -/

namespace Sys2Proof

inductive Instr where
  /-- `CLS`, R301. -/
  | cls
  /-- `RET`, R205. -/
  | ret
  /-- `JP nnn`, R206. -/
  | jpNnn (nnn : Addr12)
  /-- `CALL nnn`, R207. -/
  | callNnn (nnn : Addr12)
  /-- `SE Vx,kk`, R208. -/
  | seVxKk (x : Reg) (kk : Byte)
  /-- `SNE Vx,kk`, R209. -/
  | sneVxKk (x : Reg) (kk : Byte)
  /-- `SE Vx,Vy`, R210. -/
  | seVxVy (x y : Reg)
  /-- `LD Vx,kk`, R252. -/
  | ldVxKk (x : Reg) (kk : Byte)
  /-- `ADD Vx,kk`, R253. -/
  | addVxKk (x : Reg) (kk : Byte)
  /-- `LD Vx,Vy`, R254. -/
  | ldVxVy (x y : Reg)
  /-- `OR Vx,Vy`, R255. -/
  | orVxVy (x y : Reg)
  /-- `AND Vx,Vy`, R256. -/
  | andVxVy (x y : Reg)
  /-- `XOR Vx,Vy`, R257. -/
  | xorVxVy (x y : Reg)
  /-- `ADD Vx,Vy`, R258. -/
  | addVxVy (x y : Reg)
  /-- `SUB Vx,Vy`, R259. -/
  | subVxVy (x y : Reg)
  /-- `SHR Vx`, R260. -/
  | shrVx (x : Reg)
  /-- `SUBN Vx,Vy`, R261. -/
  | subnVxVy (x y : Reg)
  /-- `SHL Vx`, R262. -/
  | shlVx (x : Reg)
  /-- `SNE Vx,Vy`, R211. -/
  | sneVxVy (x y : Reg)
  /-- `LD I,nnn`, R390. -/
  | ldINnn (nnn : Addr12)
  /-- `JP V0,nnn`, R212. -/
  | jpV0Nnn (nnn : Addr12)
  /-- `RND Vx,kk`, R263. -/
  | rndVxKk (x : Reg) (kk : Byte)
  /-- `DRW Vx,Vy,n`, R302; `n` is the height in rows, 0 to 15. -/
  | drwVxVyN (x y : Reg) (n : Fin 16)
  /-- `SKP Vx`, R342. -/
  | skpVx (x : Reg)
  /-- `SKNP Vx`, R343. -/
  | sknpVx (x : Reg)
  /-- `LD Vx,DT`, R344. -/
  | ldVxDt (x : Reg)
  /-- `LD Vx,K`, R345. -/
  | ldVxK (x : Reg)
  /-- `LD DT,Vx`, R346. -/
  | ldDtVx (x : Reg)
  /-- `LD ST,Vx`, R347. -/
  | ldStVx (x : Reg)
  /-- `ADD I,Vx`, R391. -/
  | addIVx (x : Reg)
  /-- `LD F,Vx`, R392. -/
  | ldFVx (x : Reg)
  /-- `LD B,Vx`, R393. -/
  | ldBVx (x : Reg)
  /-- `LD [I],Vx`, R394. -/
  | ldMemVx (x : Reg)
  /-- `LD Vx,[I]`, R395. -/
  | ldVxMem (x : Reg)
deriving DecidableEq, Repr

end Sys2Proof
end

