-- ==== Sys2Proof/WellFormed.lean ====
section
/-! DEFINITION. Well-formed operands: what fits the fields of R121, as numbers (R136: `kk` must fit in
8 bits and `nnn` in 12; registers are V0 to VF; R302: n is 0 to 15). `Instr` carries its operands in types
of exactly these widths, so every `Instr` passes; the checks bite on operands given as plain numbers. -/

namespace Sys2Proof

/-- Operands as plain numbers; a field the form does not use is 0. -/
structure RawOperands where
  x : Nat := 0
  y : Nat := 0
  n : Nat := 0
  kk : Nat := 0
  nnn : Nat := 0
deriving DecidableEq, Repr

/-- Each operand fits its field (R121). -/
def RawOperands.fits (o : RawOperands) : Bool :=
  decide (o.x < 16) && decide (o.y < 16) && decide (o.n < 16) && decide (o.kk < 256) && decide (o.nnn < 4096)

/-- The operands of an instruction as numbers. -/
def Instr.operands : Instr → RawOperands
  | .cls => {}
  | .ret => {}
  | .jpNnn nnn => { nnn := nnn.toNat }
  | .callNnn nnn => { nnn := nnn.toNat }
  | .seVxKk x kk => { x := x.val, kk := kk.toNat }
  | .sneVxKk x kk => { x := x.val, kk := kk.toNat }
  | .seVxVy x y => { x := x.val, y := y.val }
  | .ldVxKk x kk => { x := x.val, kk := kk.toNat }
  | .addVxKk x kk => { x := x.val, kk := kk.toNat }
  | .ldVxVy x y => { x := x.val, y := y.val }
  | .orVxVy x y => { x := x.val, y := y.val }
  | .andVxVy x y => { x := x.val, y := y.val }
  | .xorVxVy x y => { x := x.val, y := y.val }
  | .addVxVy x y => { x := x.val, y := y.val }
  | .subVxVy x y => { x := x.val, y := y.val }
  | .shrVx x => { x := x.val }
  | .subnVxVy x y => { x := x.val, y := y.val }
  | .shlVx x => { x := x.val }
  | .sneVxVy x y => { x := x.val, y := y.val }
  | .ldINnn nnn => { nnn := nnn.toNat }
  | .jpV0Nnn nnn => { nnn := nnn.toNat }
  | .rndVxKk x kk => { x := x.val, kk := kk.toNat }
  | .drwVxVyN x y n => { x := x.val, y := y.val, n := n.val }
  | .skpVx x => { x := x.val }
  | .sknpVx x => { x := x.val }
  | .ldVxDt x => { x := x.val }
  | .ldVxK x => { x := x.val }
  | .ldDtVx x => { x := x.val }
  | .ldStVx x => { x := x.val }
  | .addIVx x => { x := x.val }
  | .ldFVx x => { x := x.val }
  | .ldBVx x => { x := x.val }
  | .ldMemVx x => { x := x.val }
  | .ldVxMem x => { x := x.val }

/-- An instruction is well formed when its operands fit their fields. -/
abbrev Instr.WellFormed (i : Instr) : Prop := i.operands.fits = true

end Sys2Proof
end

