-- ==== Sys2Proof/Decode.lean ====
section
/-! DEFINITION. Decoding and encoding (30_encoding.md): the fields (R121), the two-level decoder (R124),
the opcode map with its masks (R134), the canonical encoder (R136), and the host's table-word decoder. -/

namespace Sys2Proof

/-- The family nibble `w[15:12]` (R121), as a number. -/
def Word.op (w : Word) : Nat := (w.extractLsb' 12 4).toNat

/-- The register index `w[11:8]` (R121). -/
def Word.x (w : Word) : Reg := (w.extractLsb' 8 4).toFin

/-- The register index `w[7:4]` (R121). -/
def Word.y (w : Word) : Reg := (w.extractLsb' 4 4).toFin

/-- The low nibble `w[3:0]` (R121). -/
def Word.n (w : Word) : Fin 16 := (w.extractLsb' 0 4).toFin

/-- The low byte `w[7:0]` (R121). -/
def Word.kk (w : Word) : Byte := w.extractLsb' 0 8

/-- The low 12 bits `w[11:0]` (R121). -/
def Word.nnn (w : Word) : Addr12 := w.extractLsb' 0 12

/-- Why bytes are no instruction. -/
inductive Reject where
  /-- `Unknown(w)` of R124 and R131: no form of the table. -/
  | unknownOpcode (w : Word)
  /-- Fewer than the two bytes every instruction has (R120). -/
  | truncated
deriving DecidableEq, Repr

/-- Family 0, dispatched on the low byte; `w[11:8]` is not examined (R124, R125). -/
def decodeFamily0 (w : Word) : Except Reject Instr :=
  match w.kk.toNat with
  | 0xE0 => .ok .cls
  | 0xEE => .ok .ret
  | _ => .error (.unknownOpcode w)

/-- Family 8, dispatched on the low nibble (R124, R126). -/
def decodeFamily8 (w : Word) : Except Reject Instr :=
  match w.n.val with
  | 0x0 => .ok (.ldVxVy w.x w.y)
  | 0x1 => .ok (.orVxVy w.x w.y)
  | 0x2 => .ok (.andVxVy w.x w.y)
  | 0x3 => .ok (.xorVxVy w.x w.y)
  | 0x4 => .ok (.addVxVy w.x w.y)
  | 0x5 => .ok (.subVxVy w.x w.y)
  | 0x6 => .ok (.shrVx w.x)
  | 0x7 => .ok (.subnVxVy w.x w.y)
  | 0xE => .ok (.shlVx w.x)
  | _ => .error (.unknownOpcode w)

/-- Family E, dispatched on the low byte (R124, R127). -/
def decodeFamilyE (w : Word) : Except Reject Instr :=
  match w.kk.toNat with
  | 0x9E => .ok (.skpVx w.x)
  | 0xA1 => .ok (.sknpVx w.x)
  | _ => .error (.unknownOpcode w)

/-- Family F, dispatched on the low byte (R124, R128). -/
def decodeFamilyF (w : Word) : Except Reject Instr :=
  match w.kk.toNat with
  | 0x07 => .ok (.ldVxDt w.x)
  | 0x0A => .ok (.ldVxK w.x)
  | 0x15 => .ok (.ldDtVx w.x)
  | 0x18 => .ok (.ldStVx w.x)
  | 0x1E => .ok (.addIVx w.x)
  | 0x29 => .ok (.ldFVx w.x)
  | 0x33 => .ok (.ldBVx w.x)
  | 0x55 => .ok (.ldMemVx w.x)
  | 0x65 => .ok (.ldVxMem w.x)
  | _ => .error (.unknownOpcode w)

/-- The decoder of R124: first on the family, then inside the four families that multiplex. The last
arm is family 0xF, the only one left. -/
def decodeWord (w : Word) : Except Reject Instr :=
  match w.op with
  | 0x0 => decodeFamily0 w
  | 0x1 => .ok (.jpNnn w.nnn)
  | 0x2 => .ok (.callNnn w.nnn)
  | 0x3 => .ok (.seVxKk w.x w.kk)
  | 0x4 => .ok (.sneVxKk w.x w.kk)
  | 0x5 => .ok (.seVxVy w.x w.y)
  | 0x6 => .ok (.ldVxKk w.x w.kk)
  | 0x7 => .ok (.addVxKk w.x w.kk)
  | 0x8 => decodeFamily8 w
  | 0x9 => .ok (.sneVxVy w.x w.y)
  | 0xA => .ok (.ldINnn w.nnn)
  | 0xB => .ok (.jpV0Nnn w.nnn)
  | 0xC => .ok (.rndVxKk w.x w.kk)
  | 0xD => .ok (.drwVxVyN w.x w.y w.n)
  | 0xE => decodeFamilyE w
  | _ => decodeFamilyF w

/-- The word two consecutive bytes make, the byte at the lower address first and most significant (R83, R84). -/
def wordOfBytes (hi lo : Byte) : Word := hi ++ lo

/-- Decode the first instruction of a run of bytes; answers the bytes after it (R120). -/
def decodeBytes : List Byte → Except Reject (Instr × List Byte)
  | hi :: lo :: rest =>
    match decodeWord (wordOfBytes hi lo) with
    | .ok i => .ok (i, rest)
    | .error r => .error r
  | _ => .error .truncated

/-- A 4-bit field from a register name or a row count. -/
def nibble (r : Fin 16) : BitVec 4 := BitVec.ofFin r

/-- The format A word (R122). -/
def formatA (op : BitVec 4) (nnn : Addr12) : Word := op ++ nnn

/-- The formats XK and XS, and Z with x = 0 (R122). -/
def formatXK (op : BitVec 4) (x : Reg) (kk : Byte) : Word := op ++ nibble x ++ kk

/-- The formats XY, XYS and XYN (R122). -/
def formatXYN (op : BitVec 4) (x y : Reg) (n : BitVec 4) : Word := op ++ nibble x ++ nibble y ++ n

/-- The canonical encoding: R134's pattern, with 0 in every ignored nibble (R136). -/
def encode : Instr → Word
  | .cls => formatXK 0x0 0 0xE0
  | .ret => formatXK 0x0 0 0xEE
  | .jpNnn nnn => formatA 0x1 nnn
  | .callNnn nnn => formatA 0x2 nnn
  | .seVxKk x kk => formatXK 0x3 x kk
  | .sneVxKk x kk => formatXK 0x4 x kk
  | .seVxVy x y => formatXYN 0x5 x y 0x0
  | .ldVxKk x kk => formatXK 0x6 x kk
  | .addVxKk x kk => formatXK 0x7 x kk
  | .ldVxVy x y => formatXYN 0x8 x y 0x0
  | .orVxVy x y => formatXYN 0x8 x y 0x1
  | .andVxVy x y => formatXYN 0x8 x y 0x2
  | .xorVxVy x y => formatXYN 0x8 x y 0x3
  | .addVxVy x y => formatXYN 0x8 x y 0x4
  | .subVxVy x y => formatXYN 0x8 x y 0x5
  | .shrVx x => formatXYN 0x8 x 0 0x6
  | .subnVxVy x y => formatXYN 0x8 x y 0x7
  | .shlVx x => formatXYN 0x8 x 0 0xE
  | .sneVxVy x y => formatXYN 0x9 x y 0x0
  | .ldINnn nnn => formatA 0xA nnn
  | .jpV0Nnn nnn => formatA 0xB nnn
  | .rndVxKk x kk => formatXK 0xC x kk
  | .drwVxVyN x y n => formatXYN 0xD x y (nibble n)
  | .skpVx x => formatXK 0xE x 0x9E
  | .sknpVx x => formatXK 0xE x 0xA1
  | .ldVxDt x => formatXK 0xF x 0x07
  | .ldVxK x => formatXK 0xF x 0x0A
  | .ldDtVx x => formatXK 0xF x 0x15
  | .ldStVx x => formatXK 0xF x 0x18
  | .addIVx x => formatXK 0xF x 0x1E
  | .ldFVx x => formatXK 0xF x 0x29
  | .ldBVx x => formatXK 0xF x 0x33
  | .ldMemVx x => formatXK 0xF x 0x55
  | .ldVxMem x => formatXK 0xF x 0x65

/-- A row of the opcode map of R134. -/
structure OpcodeRow where
  mnemonic : String
  mask : Word
  pattern : Word
deriving DecidableEq, Repr

/-- The row of R134 each form stands in. -/
def Instr.row : Instr → OpcodeRow
  | .cls => ⟨"CLS", 0xF0FF, 0x00E0⟩
  | .ret => ⟨"RET", 0xF0FF, 0x00EE⟩
  | .jpNnn _ => ⟨"JP_nnn", 0xF000, 0x1000⟩
  | .callNnn _ => ⟨"CALL_nnn", 0xF000, 0x2000⟩
  | .seVxKk _ _ => ⟨"SE_Vx_kk", 0xF000, 0x3000⟩
  | .sneVxKk _ _ => ⟨"SNE_Vx_kk", 0xF000, 0x4000⟩
  | .seVxVy _ _ => ⟨"SE_Vx_Vy", 0xF000, 0x5000⟩
  | .ldVxKk _ _ => ⟨"LD_Vx_kk", 0xF000, 0x6000⟩
  | .addVxKk _ _ => ⟨"ADD_Vx_kk", 0xF000, 0x7000⟩
  | .ldVxVy _ _ => ⟨"LD_Vx_Vy", 0xF00F, 0x8000⟩
  | .orVxVy _ _ => ⟨"OR_Vx_Vy", 0xF00F, 0x8001⟩
  | .andVxVy _ _ => ⟨"AND_Vx_Vy", 0xF00F, 0x8002⟩
  | .xorVxVy _ _ => ⟨"XOR_Vx_Vy", 0xF00F, 0x8003⟩
  | .addVxVy _ _ => ⟨"ADD_Vx_Vy", 0xF00F, 0x8004⟩
  | .subVxVy _ _ => ⟨"SUB_Vx_Vy", 0xF00F, 0x8005⟩
  | .shrVx _ => ⟨"SHR_Vx", 0xF00F, 0x8006⟩
  | .subnVxVy _ _ => ⟨"SUBN_Vx_Vy", 0xF00F, 0x8007⟩
  | .shlVx _ => ⟨"SHL_Vx", 0xF00F, 0x800E⟩
  | .sneVxVy _ _ => ⟨"SNE_Vx_Vy", 0xF000, 0x9000⟩
  | .ldINnn _ => ⟨"LD_I_nnn", 0xF000, 0xA000⟩
  | .jpV0Nnn _ => ⟨"JP_V0_nnn", 0xF000, 0xB000⟩
  | .rndVxKk _ _ => ⟨"RND_Vx_kk", 0xF000, 0xC000⟩
  | .drwVxVyN _ _ _ => ⟨"DRW_Vx_Vy_n", 0xF000, 0xD000⟩
  | .skpVx _ => ⟨"SKP_Vx", 0xF0FF, 0xE09E⟩
  | .sknpVx _ => ⟨"SKNP_Vx", 0xF0FF, 0xE0A1⟩
  | .ldVxDt _ => ⟨"LD_Vx_DT", 0xF0FF, 0xF007⟩
  | .ldVxK _ => ⟨"LD_Vx_K", 0xF0FF, 0xF00A⟩
  | .ldDtVx _ => ⟨"LD_DT_Vx", 0xF0FF, 0xF015⟩
  | .ldStVx _ => ⟨"LD_ST_Vx", 0xF0FF, 0xF018⟩
  | .addIVx _ => ⟨"ADD_I_Vx", 0xF0FF, 0xF01E⟩
  | .ldFVx _ => ⟨"LD_F_Vx", 0xF0FF, 0xF029⟩
  | .ldBVx _ => ⟨"LD_B_Vx", 0xF0FF, 0xF033⟩
  | .ldMemVx _ => ⟨"LD__I__Vx", 0xF0FF, 0xF055⟩
  | .ldVxMem _ => ⟨"LD_Vx__I", 0xF0FF, 0xF065⟩

/-- The bits the decoder examines for a form: all but the ignored bits of R130. -/
def Instr.examined : Instr → Word
  | .cls | .ret => 0xF0FF
  | .seVxVy _ _ | .sneVxVy _ _ => 0xFFF0
  | .shrVx _ | .shlVx _ => 0xFF0F
  | .jpNnn _ | .callNnn _ | .seVxKk _ _ | .sneVxKk _ _ | .ldVxKk _ _ | .addVxKk _ _ | .ldVxVy _ _
  | .orVxVy _ _ | .andVxVy _ _ | .xorVxVy _ _ | .addVxVy _ _ | .subVxVy _ _ | .subnVxVy _ _ | .ldINnn _
  | .jpV0Nnn _ | .rndVxKk _ _ | .drwVxVyN _ _ _ | .skpVx _ | .sknpVx _ | .ldVxDt _ | .ldVxK _ | .ldDtVx _
  | .ldStVx _ | .addIVx _ | .ldFVx _ | .ldBVx _ | .ldMemVx _ | .ldVxMem _ => 0xFFFF

/-- One instruction of each form, in the table's order. -/
def formSamples : List Instr :=
  [.cls, .ret, .jpNnn 0, .callNnn 0, .seVxKk 0 0, .sneVxKk 0 0, .seVxVy 0 0, .ldVxKk 0 0, .addVxKk 0 0,
   .ldVxVy 0 0, .orVxVy 0 0, .andVxVy 0 0, .xorVxVy 0 0, .addVxVy 0 0, .subVxVy 0 0, .shrVx 0] ++
  [.subnVxVy 0 0, .shlVx 0, .sneVxVy 0 0, .ldINnn 0, .jpV0Nnn 0, .rndVxKk 0 0, .drwVxVyN 0 0 0, .skpVx 0,
   .sknpVx 0, .ldVxDt 0, .ldVxK 0, .ldDtVx 0, .ldStVx 0, .addIVx 0, .ldFVx 0, .ldBVx 0, .ldMemVx 0, .ldVxMem 0]

/-- The opcode map of R134, its 34 rows in order. -/
def opcodeTable : List OpcodeRow := formSamples.map Instr.row

/-- A word is of a row's form when its masked bits are the row's pattern (R134). -/
def OpcodeRow.admits (r : OpcodeRow) (w : Word) : Bool := w &&& r.mask == r.pattern

/-- The 16-bit word of a table row's bits: bit 0 of `w` is its least significant bit, and bits at or
above `nbits` are 0. -/
def tableWord (nbits w : Nat) : Word := BitVec.ofNat 16 (if nbits < 16 then w % 2 ^ nbits else w)

/-- The word's two bytes as memory holds them, the high byte at the lower address (R84). -/
def wordBytes (w : Word) : List Byte := [w.extractLsb' 8 8, w.extractLsb' 0 8]

/-- What the decoder reads from an opcode-table row's bits, laid out as memory lays them out. -/
def decodeTableWord (nbits w : Nat) : Option Instr :=
  match decodeBytes (wordBytes (tableWord nbits w)) with
  | .ok (i, _) => some i
  | .error _ => none

end Sys2Proof
end

