-- ==== Sys2Proof/Config.lean ====
section
/-! DEFINITION. What is fixed for a machine (the parameters of 00_scope.md R5 that the source leaves
open) and the FREE VALUES the host supplies and the spec constrains by no law (R263, R349, R603). -/

namespace Sys2Proof.Config

/-- STACK_POLICY (R205, R207, decision D4). -/
inductive StackPolicy where
  | fault
  | wrap
deriving DecidableEq, Repr

/-- UNKNOWN_OPCODE_POLICY (R506, decision D5). -/
inductive UnknownPolicy where
  | fault
  | nop
deriving DecidableEq, Repr

/-- SPRITE_EDGE (R303, decision D6). -/
inductive SpriteEdge where
  | clip
  | wrap
deriving DecidableEq, Repr

/-- LOW_WRITE_POLICY (R82, decision D9). -/
inductive LowWritePolicy where
  | fault
  | allow
deriving DecidableEq, Repr

/-- KEY_INDEX_POLICY (R341, decision D10). -/
inductive KeyIndexPolicy where
  | fault
  | lowNibble
deriving DecidableEq, Repr

/-- ALU_ALIAS_MODE (R251, decision D11). -/
inductive AliasMode where
  | sequential
  | flagLast
deriving DecidableEq, Repr

/-- The six parameters of R5 that instructions consult. -/
structure Policies where
  stack : StackPolicy
  unknown : UnknownPolicy
  edge : SpriteEdge
  lowWrite : LowWritePolicy
  keyIndex : KeyIndexPolicy
  aliasing : AliasMode
deriving DecidableEq, Repr

/-- Everything reset takes as a parameter (R5, R600): FONT (R90), ENTRY_PC (D3) and the policies. -/
structure ResetParams where
  font : Vector Byte 80
  entryPc : Word
  policies : Policies
deriving DecidableEq, Repr

/-- FREE VALUE: the Input Latch value of the n-th iteration whose inputs no listed event gives (R340, R603). -/
opaque freeKeys : Nat → Vector Bool 16

/-- FREE VALUE: whether that iteration ticks the timers (R349). -/
opaque freeTick : Nat → Bool

/-- FREE VALUE: the random byte of that iteration (R263). -/
opaque freeRnd : Nat → Byte

end Sys2Proof.Config
end

