-- ==== Sys2Proof/Machine/Defaults.lean ====
section
/-! DEFINITION. The spec's default parameters (00_scope.md R5): the standard glyph set (20_memory.md R90),
the entry point (D3) and the default policies. -/

namespace Sys2Proof.Machine

/-- The 16 glyphs of R90, 5 bytes each, digit 0 first. -/
def standardGlyphs : List Byte :=
  [0xF0, 0x90, 0x90, 0x90, 0xF0] ++ [0x20, 0x60, 0x20, 0x20, 0x70] ++
  [0xF0, 0x10, 0xF0, 0x80, 0xF0] ++ [0xF0, 0x10, 0xF0, 0x10, 0xF0] ++
  [0x90, 0x90, 0xF0, 0x10, 0x10] ++ [0xF0, 0x80, 0xF0, 0x10, 0xF0] ++
  [0xF0, 0x80, 0xF0, 0x90, 0xF0] ++ [0xF0, 0x10, 0x20, 0x40, 0x40] ++
  [0xF0, 0x90, 0xF0, 0x90, 0xF0] ++ [0xF0, 0x90, 0xF0, 0x10, 0xF0] ++
  [0xF0, 0x90, 0xF0, 0x90, 0x90] ++ [0xE0, 0x90, 0xE0, 0x90, 0xE0] ++
  [0xF0, 0x80, 0x80, 0x80, 0xF0] ++ [0xE0, 0x90, 0x90, 0x90, 0xE0] ++
  [0xF0, 0x80, 0xF0, 0x80, 0xF0] ++ [0xF0, 0x80, 0xF0, 0x80, 0x80]

/-- FONT's default as the 80-byte parameter of R5. -/
def standardFont : Vector Byte 80 := Vector.ofFn fun k => standardGlyphs.getD k.val 0

/-- ENTRY_PC's default (D3, R42). -/
def standardEntryPc : Word := 0x200

/-- The defaults of the six run-time parameters (R5). -/
def standardPolicies : Config.Policies where
  stack := .fault
  unknown := .fault
  edge := .clip
  lowWrite := .fault
  keyIndex := .fault
  aliasing := .sequential

/-- All defaults of R5. -/
def standardParams : Config.ResetParams where
  font := standardFont
  entryPc := standardEntryPc
  policies := standardPolicies

end Sys2Proof.Machine
end

