-- ==== Sys2Proof/Machine/State.lean ====
section
/-! DEFINITION. The machine's state (10_state.md R41) with the model's own fields, its fault codes
(60_exceptions.md R501), the reasons a step stops, and the state after reset (R42). -/

namespace Sys2Proof.Machine

/-- The fault codes of R501, named as the spec names them. -/
inductive FaultCode where
  /-- Code 1: fetch at an odd PC (R201). -/
  | invalidAddress
  /-- Code 2: CALL with 16 slots in use under STACK_POLICY = FAULT (R207). -/
  | stackOverflow
  /-- Code 3: RET with none in use under STACK_POLICY = FAULT (R205). -/
  | stackUnderflow
  /-- Code 4: an unknown word under UNKNOWN_OPCODE_POLICY = FAULT (R506). -/
  | unknownOpcode
  /-- Code 5: an access above 0xFFF (R81, R82, R202). -/
  | memoryOutOfRange
  /-- Code 6: a write below 0x200 under LOW_WRITE_POLICY = FAULT (R82). -/
  | protectedWrite
  /-- Code 7: a key index above 15 under KEY_INDEX_POLICY = FAULT (R341). -/
  | invalidKeyIndex
  /-- Code 8: reset could not load the ROM (R601); never a STATUS of a running machine. -/
  | romLoadError
deriving DecidableEq, Repr

/-- What `raise F(info)` carries (R204): the code and the value R501 names. -/
structure Trap where
  code : FaultCode
  info : Nat
deriving DecidableEq, Repr

/-- STATUS (R40). -/
inductive Status where
  /-- The machine performs iterations. -/
  | running
  /-- A fault ended the run: its code, the address of the faulting instruction, and its info (R502). -/
  | faulted (code : FaultCode) (fpc : Word) (info : Nat)
  /-- The host's quit ended the run (R513). -/
  | terminated
deriving DecidableEq, Repr

/-- The Input Latch (R38): entry `k` is true when key `k` is held. -/
abbrev Keys := Vector Bool 16

/-- The display grid (R37), a vector of 32 rows of 64 cells; true is on. -/
abbrev Display := Vector (Vector Bool 64) 32

/-- Memory as its written cells, in the canonical form of `Memory.wf`. -/
abbrev Memory := List Host.Cell

/-- What the host does next (R603, R604, R513). -/
inductive HostEvent where
  /-- One iteration, with the host's three inputs of it (R603). -/
  | iteration (keysIn : Keys) (tick : Bool) (rnd : Byte)
  /-- The host quits instead (R513). -/
  | quit
deriving DecidableEq, Repr

/-- The spec's state tuple (R41), `v` to `status`, and then the model's own fields. -/
structure State where
  /-- V0 to VF (R30). -/
  v : Vector Byte 16
  /-- The index register (R33). -/
  i : Word
  /-- The program counter (R32). -/
  pc : Word
  /-- The stack depth (R34). -/
  sp : Fin 17
  /-- The return-address slots (R34). -/
  stack : Vector Word 16
  /-- The delay timer (R35). -/
  dt : Byte
  /-- The sound timer (R35). -/
  st : Byte
  /-- Memory (R36). -/
  mem : Memory
  /-- The display grid (R37). -/
  disp : Display
  /-- The Input Latch (R38). -/
  keys : Keys
  /-- The run state (R40). -/
  status : Status
  /-- The model's own: the parameters of R5, fixed for a machine. -/
  policy : Config.Policies
  /-- The model's own: the random byte drawn for this iteration (R263). -/
  rnd : Byte
  /-- The model's own: what the host does next, oldest first (R603). -/
  events : List HostEvent
  /-- The model's own: how many iterations took their inputs from Config's free values. -/
  draws : Nat
deriving DecidableEq, Repr

/-- Why the machine stops: its run is over (R607). -/
inductive Fault where
  /-- `step` raises it when STATUS is FAULTED: FAULTED is terminal, no step runs again (R40, R500). Safe: the hardware stops too. -/
  | halted (code : FaultCode) (fpc : Word) (info : Nat)
  /-- `step` raises it when STATUS is TERMINATED, which is terminal (R40, R513). Safe: the hardware stops too. -/
  | terminated
deriving DecidableEq, Repr

/-- Refusals. -/
inductive Refusal where
  /-- Only `exec`'s arms for instructions without a meaning raise it; no arm does. Safe. -/
  | notModelled (mnemonic : String)
deriving DecidableEq, Repr

/-- What one step answers. -/
abbrev Result := Host.Outcome State Fault Refusal

/-- The machine after reset with an empty ROM and the default parameters (R42, R600, R601): nothing is
listed in memory, so every byte reads as its reset value. `rnd`, `events` and `draws` are the model's own
(DESIGN CHOICE, log entries 2 and 3). -/
def State.reset : State where
  v := Vector.replicate 16 0
  i := 0
  pc := standardEntryPc
  sp := 0
  stack := Vector.replicate 16 0
  dt := 0
  st := 0
  mem := []
  disp := Vector.replicate 32 (Vector.replicate 64 false)
  keys := Vector.replicate 16 false
  status := .running
  policy := standardPolicies
  rnd := 0
  events := []
  draws := 0

end Sys2Proof.Machine
end

