-- ==== Sys2Proof/Machine/Ops.lean ====
section
/-! DEFINITION. The named operations over registers, PC, stack, memory and display, and the one way a
fault is taken. There is no return from a fault (60_exceptions.md R505). -/

namespace Sys2Proof.Machine

/-! ### General registers (R30) -/

/-- VF, the flag register (R31). -/
def vf : Reg := 15

/-- `V[r]` (R8). -/
def State.getV (s : State) (r : Reg) : Byte := s.v[r]

/-- `V[r] <- b` (R8). -/
def State.setV (s : State) (r : Reg) (b : Byte) : State := { s with v := s.v.set r b }

/-! ### Program counter (R32, R203) -/

/-- The fetch advance `PC <- (a + 2) mod 2^16`, made before the instruction executes (R203). -/
def State.advance (s : State) : State := { s with pc := s.pc + 2 }

/-- `PC <- a`. -/
def State.jump (s : State) (a : Word) : State := { s with pc := a }

/-- A conditional skip: 2 more when the condition holds (R213). -/
def State.skipIf (s : State) (c : Bool) : State := { s with pc := if c then s.pc + 2 else s.pc }

/-- The rewind of a waiting Fx0A, `PC <- (PC - 2) mod 2^16` (R345). -/
def State.rewind (s : State) : State := { s with pc := s.pc - 2 }

/-! ### Taking a fault (R204, R500, R502) -/

/-- The number of each fault code (R501). -/
def FaultCode.number : FaultCode → Nat
  | .invalidAddress => 1
  | .stackOverflow => 2
  | .stackUnderflow => 3
  | .unknownOpcode => 4
  | .memoryOutOfRange => 5
  | .protectedWrite => 6
  | .invalidKeyIndex => 7
  | .romLoadError => 8

/-- `raise F(info)` in a step that began at `s`: nothing of the step is kept, and STATUS records the
code, the PC the step began at and the info. -/
def State.raise (s : State) (t : Trap) : State := { s with status := .faulted t.code s.pc t.info }

/-- End a step that began at `s`: with what it computed, or with its fault. -/
def State.finish (s : State) (r : Except Trap State) : Result :=
  match r with
  | .ok t => .next t
  | .error t => .next (s.raise t)

/-! ### Memory (R80 to R91) -/

/-- Where FONT stands (R5). -/
def fontBase : Nat := 0x050

/-- Where the program stands (R5). -/
def programBase : Nat := 0x200

/-- MEM_SIZE (R5): the address space is `0` to `memSize - 1`. -/
def memSize : Nat := 4096

/-- What an unlisted address reads as: its reset contents before a ROM is loaded (R42, R89, R90), the
default glyph byte in the glyph region, zero elsewhere. -/
def Memory.initial (a : Nat) : Byte :=
  if fontBase ≤ a then standardGlyphs.getD (a - fontBase) 0 else 0

/-- The byte at `a`. -/
def Memory.read : Memory → Nat → Byte
  | [], a => Memory.initial a
  | (k, b) :: m, a => if k = a then b else Memory.read m a

/-- Drop every entry at `a`. -/
def Memory.erase : Memory → Nat → Memory
  | [], _ => []
  | (k, c) :: m, a => if k = a then Memory.erase m a else (k, c) :: Memory.erase m a

/-- List `b` at `a`, before the first greater address. -/
def Memory.insert : Memory → Nat → Byte → Memory
  | [], a, b => [(a, b)]
  | (k, c) :: m, a, b => if a < k then (a, b) :: (k, c) :: m else (k, c) :: Memory.insert m a b

/-- `mem[a] <- b`, keeping the canonical form: a byte equal to what an unlisted address reads as is not
listed. -/
def Memory.write (m : Memory) (a : Nat) (b : Byte) : Memory :=
  if b = Memory.initial a then m.erase a else (m.erase a).insert a b

/-- The canonical form from address `lo` up: addresses strictly rising, inside the address space, no
entry that says what an unlisted address says. -/
def Memory.wfFrom : Nat → Memory → Bool
  | _, [] => true
  | lo, (a, b) :: m =>
    decide (lo ≤ a) && decide (a < memSize) && decide (b ≠ Memory.initial a) && Memory.wfFrom (a + 1) m

/-- The canonical form of memory. -/
def Memory.wf (m : Memory) : Bool := Memory.wfFrom 0 m

/-- Bytes copied verbatim from address `a` up; the host's copies of R600, without the checks of R82. -/
def Memory.place : Memory → Nat → List Byte → Memory
  | m, _, [] => m
  | m, a, b :: bs => Memory.place (m.write a b) (a + 1) bs

/-- `MemRead(addr, 1)` (R81). -/
def State.memRead (s : State) (addr : Nat) : Except Trap Byte :=
  if addr > 0xFFF then .error ⟨.memoryOutOfRange, addr⟩ else .ok (s.mem.read addr)

/-- `MemWrite(addr, 1, v)` (R82): the range check, then the low-memory check, then the write. -/
def State.memWrite (s : State) (addr : Nat) (b : Byte) : Except Trap State :=
  if addr > 0xFFF then .error ⟨.memoryOutOfRange, addr⟩
  else if addr < programBase ∧ s.policy.lowWrite = .fault then .error ⟨.protectedWrite, addr⟩
  else .ok { s with mem := s.mem.write addr b }

/-- `n` bytes read from `addr` up, in ascending order; the first failure is the fault (R503). -/
def State.memReads (s : State) (addr : Nat) : Nat → Except Trap (List Byte)
  | 0 => .ok []
  | n + 1 =>
    match s.memRead addr with
    | .error t => .error t
    | .ok b =>
      match s.memReads (addr + 1) n with
      | .error t => .error t
      | .ok bs => .ok (b :: bs)

/-- Bytes written from `addr` up, in ascending order; the first failure is the fault (R503). -/
def State.memWrites (s : State) (addr : Nat) : List Byte → Except Trap State
  | [] => .ok s
  | b :: bs =>
    match s.memWrite addr b with
    | .error t => .error t
    | .ok s' => s'.memWrites (addr + 1) bs

/-! ### The return stack (R34) -/

/-- A slot index, 4 bits wide (R34). -/
def slot (n : Nat) : Fin 16 := Fin.ofNat 16 n

/-- A depth, 0 to 16 (R34). -/
def depth (n : Nat) : Fin 17 := Fin.ofNat 17 n

/-- CALL's push of `a` (R207), under both values of STACK_POLICY. -/
def State.push (s : State) (a : Word) : Except Trap State :=
  match s.policy.stack with
  | .fault =>
    if s.sp.val = 16 then .error ⟨.stackOverflow, 16⟩
    else .ok { s with stack := s.stack.set (slot s.sp.val) a, sp := depth (s.sp.val + 1) }
  | .wrap =>
    .ok { s with stack := s.stack.set (slot s.sp.val) a, sp := depth ((s.sp.val + 1) % 16) }

/-- RET's pop into PC (R205), under both values of STACK_POLICY; the popped slot keeps its value. -/
def State.popPc (s : State) : Except Trap State :=
  match s.policy.stack with
  | .fault =>
    if s.sp.val = 0 then .error ⟨.stackUnderflow, 0⟩
    else .ok { s with sp := depth (s.sp.val - 1), pc := s.stack[slot (s.sp.val - 1)] }
  | .wrap =>
    .ok { s with sp := depth ((s.sp.val + 15) % 16), pc := s.stack[slot ((s.sp.val + 15) % 16)] }

/-! ### The display grid (R37, R300) -/

/-- `disp[px][py]`: the cell at column `px`, row `py`. -/
def Display.pixel (d : Display) (px : Fin 64) (py : Fin 32) : Bool := d[py][px]

/-- `disp[px][py] <- disp[px][py] XOR 1`. -/
def Display.toggle (d : Display) (px : Fin 64) (py : Fin 32) : Display :=
  d.set py (d[py].set px (!d.pixel px py))

/-- Every cell off (R301). -/
def Display.off : Display := Vector.replicate 32 (Vector.replicate 64 false)

end Sys2Proof.Machine
end

