-- ==== Sys2Proof/Machine/Operands.lean ====
section
/-! DEFINITION. The operand forms that need a computation: address immediates (30_encoding.md R123), data
addresses through I (20_memory.md R81), glyph addresses (R392), key indices (R341), the BCD digits (R393)
and the register block of Fx55 and Fx65 (R394, R395). -/

namespace Sys2Proof.Machine

/-- `zext_16(nnn)` (R123). -/
def addrOf (nnn : Addr12) : Word := nnn.setWidth 16

/-- `zext_16` of a register's byte, for the 16-bit sums of R212 and R391. -/
def wordOf (b : Byte) : Word := b.setWidth 16

/-- JP V0's target `V[0] + zext_16(nnn)` (R212). -/
def offsetTarget (v0 : Byte) (nnn : Addr12) : Word := wordOf v0 + addrOf nnn

/-- ADD I's sum `(I + V[x]) mod 2^16` (R391). -/
def indexSum (i : Word) (b : Byte) : Word := i + wordOf b

/-- The glyph address `0x050 + 5 * V[x]`, unmasked (R392). -/
def glyphAddress (b : Byte) : Word := BitVec.ofNat 16 (fontBase + 5 * b.toNat)

/-- I as the base of data accesses, a number, so that `I + k` does not wrap (R81). -/
def State.base (s : State) : Nat := s.i.toNat

/-- The hundreds, tens and units digits (R393). -/
def bcdDigits (b : Byte) : List Byte :=
  [BitVec.ofNat 8 (b.toNat / 100), BitVec.ofNat 8 (b.toNat / 10 % 10), BitVec.ofNat 8 (b.toNat % 10)]

/-- `V[0]` to `V[x]`, in order (R394). -/
def State.regsUpTo (s : State) (x : Reg) : List Byte := s.v.toList.take (x.val + 1)

/-- `V[k] <- ` each byte in order, from `k` up (R395). -/
def State.loadRegs (s : State) (k : Nat) : List Byte → State
  | [] => s
  | b :: bs => (s.setV (Fin.ofNat 16 k) b).loadRegs (k + 1) bs

/-- `keyIndex(v)` (R341). -/
def State.keyIndex (s : State) (b : Byte) : Except Trap (Fin 16) :=
  if b.toNat ≤ 0xF then .ok (Fin.ofNat 16 b.toNat)
  else
    match s.policy.keyIndex with
    | .fault => .error ⟨.invalidKeyIndex, b.toNat⟩
    | .lowNibble => .ok (Fin.ofNat 16 b.toNat)

/-- `min { k | keys[k] = 1 }`, none when no key is held (R345). -/
def lowestKey (keys : Keys) : Option (Fin 16) := (List.finRange 16).find? fun k => keys[k]

/-- The base coordinates of a sprite, which always wrap (R302). -/
def baseColumn (b : Byte) : Nat := b.toNat % 64

/-- As `baseColumn`, for the row (R302). -/
def baseRow (b : Byte) : Nat := b.toNat % 32

end Sys2Proof.Machine
end

