-- ==== Sys2Proof/Machine/Flags.lean ====
section
/-! DEFINITION. The flag computations (41_alu.md R250, R258 to R262), the ALU results they go with, and
the order in which a flag and a result are written when VF is an operand (R251). -/

namespace Sys2Proof.Machine

/-- A flag's value in VF: 1 or 0. -/
def flagByte (c : Bool) : Byte := if c then 1 else 0

/-- Carry of `a + b` (R250, R258). -/
def carryFlag (a b : Byte) : Byte := flagByte (decide (a.toNat + b.toNat > 255))

/-- No borrow of `a - b` (R250, R259). -/
def noBorrowFlag (a b : Byte) : Byte := flagByte (decide (a.toNat ≥ b.toNat))

/-- Old bit 0 (R260). -/
def lowBitFlag (a : Byte) : Byte := BitVec.ofNat 8 (a.toNat % 2)

/-- Old bit 7 (R262). -/
def highBitFlag (a : Byte) : Byte := BitVec.ofNat 8 (a.toNat / 128)

/-- `(a + b) mod 256` (R250). -/
def sumByte (a b : Byte) : Byte := a + b

/-- `(a - b) mod 256` (R250). -/
def differenceByte (a b : Byte) : Byte := a - b

/-- `a div 2` (R250, R260). -/
def halfByte (a : Byte) : Byte := BitVec.ofNat 8 (a.toNat / 2)

/-- `(a * 2) mod 256` (R250, R262). -/
def doubleByte (a : Byte) : Byte := BitVec.ofNat 8 (a.toNat * 2)

/-- SUB, SUBN, SHR and SHL write VF first and the result second under SEQUENTIAL, each statement reading
the registers as they then stand; under FLAG_LAST both are computed from the registers before any write
and the flag is written last (R251). -/
def State.flagAndResult (s : State) (x y : Reg) (flag result : Byte → Byte → Byte) : State :=
  match s.policy.aliasing with
  | .sequential =>
    let s₁ := s.setV vf (flag (s.getV x) (s.getV y))
    s₁.setV x (result (s₁.getV x) (s₁.getV y))
  | .flagLast => (s.setV x (result (s.getV x) (s.getV y))).setV vf (flag (s.getV x) (s.getV y))

end Sys2Proof.Machine
end

