-- ==== Sys2Proof/Machine/Alu.lean ====
section
/-! DEFINITION. Register loads, arithmetic, logic and RND (41_alu.md R252 to R263). None faults (R250). -/

namespace Sys2Proof.Machine

/-- LD Vx,kk (R252). -/
def execLdVxKk (x : Reg) (kk : Byte) (s : State) : Result := .next (s.advance.setV x kk)

/-- ADD Vx,kk (R253): no flag. -/
def execAddVxKk (x : Reg) (kk : Byte) (s : State) : Result :=
  .next (s.advance.setV x (sumByte (s.getV x) kk))

/-- LD Vx,Vy (R254). -/
def execLdVxVy (x y : Reg) (s : State) : Result := .next (s.advance.setV x (s.getV y))

/-- OR Vx,Vy (R255): VF is not reset. -/
def execOrVxVy (x y : Reg) (s : State) : Result := .next (s.advance.setV x (s.getV x ||| s.getV y))

/-- AND Vx,Vy (R256). -/
def execAndVxVy (x y : Reg) (s : State) : Result := .next (s.advance.setV x (s.getV x &&& s.getV y))

/-- XOR Vx,Vy (R257). -/
def execXorVxVy (x y : Reg) (s : State) : Result := .next (s.advance.setV x (s.getV x ^^^ s.getV y))

/-- ADD Vx,Vy (R258): the sum is computed first and the carry written last, under both modes. -/
def execAddVxVy (x y : Reg) (s : State) : Result :=
  .next ((s.advance.setV x (sumByte (s.getV x) (s.getV y))).setV vf (carryFlag (s.getV x) (s.getV y)))

/-- SUB Vx,Vy (R259). -/
def execSubVxVy (x y : Reg) (s : State) : Result :=
  .next (s.advance.flagAndResult x y noBorrowFlag differenceByte)

/-- SHR Vx (R260): Vy is never read. -/
def execShrVx (x : Reg) (s : State) : Result :=
  .next (s.advance.flagAndResult x x (fun a _ => lowBitFlag a) (fun a _ => halfByte a))

/-- SUBN Vx,Vy (R261): SUB with the operands exchanged. -/
def execSubnVxVy (x y : Reg) (s : State) : Result :=
  .next (s.advance.flagAndResult x y (fun a b => noBorrowFlag b a) (fun a b => differenceByte b a))

/-- SHL Vx (R262): Vy is never read. -/
def execShlVx (x : Reg) (s : State) : Result :=
  .next (s.advance.flagAndResult x x (fun a _ => highBitFlag a) (fun a _ => doubleByte a))

/-- RND Vx,kk (R263): the random byte is the draw the iteration holds in `rnd`, any byte. -/
def execRndVxKk (x : Reg) (kk : Byte) (s : State) : Result := .next (s.advance.setV x (s.rnd &&& kk))

end Sys2Proof.Machine
end

