-- ==== Sys2Proof/Machine/ControlFlow.lean ====
section
/-! DEFINITION. The control-transfer family (40_control_flow.md R205 to R212). A meaning receives the
state as the step begins, with PC the instruction's own address; `advance` is the fetch's PC + 2 (R203). -/

namespace Sys2Proof.Machine

/-- RET (R205). -/
def execRet (s : State) : Result := s.finish s.advance.popPc

/-- JP nnn (R206). -/
def execJpNnn (nnn : Addr12) (s : State) : Result := .next (s.advance.jump (addrOf nnn))

/-- CALL nnn (R207): the pushed PC is the one already advanced. -/
def execCallNnn (nnn : Addr12) (s : State) : Result :=
  s.finish <|
    match s.advance.push s.advance.pc with
    | .error t => .error t
    | .ok s' => .ok (s'.jump (addrOf nnn))

/-- SE Vx,kk (R208). -/
def execSeVxKk (x : Reg) (kk : Byte) (s : State) : Result :=
  .next (s.advance.skipIf (s.getV x == kk))

/-- SNE Vx,kk (R209). -/
def execSneVxKk (x : Reg) (kk : Byte) (s : State) : Result :=
  .next (s.advance.skipIf (s.getV x != kk))

/-- SE Vx,Vy (R210). -/
def execSeVxVy (x y : Reg) (s : State) : Result :=
  .next (s.advance.skipIf (s.getV x == s.getV y))

/-- SNE Vx,Vy (R211). -/
def execSneVxVy (x y : Reg) (s : State) : Result :=
  .next (s.advance.skipIf (s.getV x != s.getV y))

/-- JP V0,nnn (R212). -/
def execJpV0Nnn (nnn : Addr12) (s : State) : Result :=
  .next (s.advance.jump (offsetTarget (s.getV 0) nnn))

/-- Executing `Unknown(w)` (R506), which no constructor of `Instr` stands for. -/
def execUnknown (w : Word) (s : State) : Result :=
  match s.policy.unknown with
  | .fault => .next (s.raise ⟨.unknownOpcode, w.toNat⟩)
  | .nop => .next s.advance

end Sys2Proof.Machine
end

