-- ==== Sys2Proof/Machine/Display.lean ====
section
/-! DEFINITION. The display family: CLS and the XOR sprite blit (42_display.md R301 to R303). -/

namespace Sys2Proof.Machine

/-- The cell a sprite pixel lands on: none when CLIP drops it (R302, R303). -/
def spriteCell (edge : Config.SpriteEdge) (px py : Nat) : Option (Fin 64 × Fin 32) :=
  match edge with
  | .wrap => some (Fin.ofNat 64 px, Fin.ofNat 32 py)
  | .clip => if px > 63 ∨ py > 31 then none else some (Fin.ofNat 64 px, Fin.ofNat 32 py)

/-- One set sprite bit: XOR its cell, and note whether the cell was on (R302). The second component is
the collision so far. -/
def drawPixel (edge : Config.SpriteEdge) (px py : Nat) (acc : Display × Bool) : Display × Bool :=
  match spriteCell edge px py with
  | none => acc
  | some (cx, cy) => (acc.1.toggle cx cy, acc.2 || acc.1.pixel cx cy)

/-- One sprite row from column `xc`, most significant bit first (R302). -/
def drawRow (edge : Config.SpriteEdge) (xc py : Nat) (b : Byte) (acc : Display × Bool) : Display × Bool :=
  (List.range 8).foldl (fun a c => if b.getLsbD (7 - c) then drawPixel edge (xc + c) py a else a) acc

/-- The rows of a sprite, from row `yc` down (R302). -/
def drawRows (edge : Config.SpriteEdge) (xc : Nat) : Nat → List Byte → Display × Bool → Display × Bool
  | _, [], acc => acc
  | yc, b :: bs, acc => drawRows edge xc (yc + 1) bs (drawRow edge xc yc b acc)

/-- CLS (R301). -/
def execCls (s : State) : Result := .next { s.advance with disp := Display.off }

/-- DRW Vx,Vy,n (R302): the coordinates and the sprite bytes are read first, then VF is cleared and set by
the blit. -/
def execDrwVxVyN (x y : Reg) (n : Fin 16) (s : State) : Result :=
  s.finish <|
    match s.memReads s.base n.val with
    | .error t => .error t
    | .ok rows =>
      let drawn := drawRows s.policy.edge (baseColumn (s.getV x)) (baseRow (s.getV y)) rows (s.disp, false)
      .ok ({ s.advance with disp := drawn.1 }.setV vf (flagByte drawn.2))

end Sys2Proof.Machine
end

