-- ==== Sys2Proof/Machine/IndexMemory.lean ====
section
/-! DEFINITION. The index and memory family (44_index_memory.md R390 to R395). Fx33, Fx55, Fx65 leave I
as it was (R396). -/

namespace Sys2Proof.Machine

/-- LD I,nnn (R390). -/
def execLdINnn (nnn : Addr12) (s : State) : Result := .next { s.advance with i := addrOf nnn }

/-- ADD I,Vx (R391): VF is not written. -/
def execAddIVx (x : Reg) (s : State) : Result := .next { s.advance with i := indexSum s.i (s.getV x) }

/-- LD F,Vx (R392). -/
def execLdFVx (x : Reg) (s : State) : Result := .next { s.advance with i := glyphAddress (s.getV x) }

/-- LD B,Vx (R393). -/
def execLdBVx (x : Reg) (s : State) : Result :=
  s.finish (s.advance.memWrites s.base (bcdDigits (s.getV x)))

/-- LD [I],Vx (R394). -/
def execLdMemVx (x : Reg) (s : State) : Result :=
  s.finish (s.advance.memWrites s.base (s.regsUpTo x))

/-- LD Vx,[I] (R395). -/
def execLdVxMem (x : Reg) (s : State) : Result :=
  s.finish <|
    match s.memReads s.base (x.val + 1) with
    | .error t => .error t
    | .ok bytes => .ok (s.advance.loadRegs 0 bytes)

end Sys2Proof.Machine
end

