-- ==== Sys2Proof/Machine/TimersKeys.lean ====
section
/-! DEFINITION. The key and timer instructions (43_timers_keys.md R342 to R347). -/

namespace Sys2Proof.Machine

/-- SKP Vx (R342). -/
def execSkpVx (x : Reg) (s : State) : Result :=
  s.finish <|
    match s.keyIndex (s.getV x) with
    | .error t => .error t
    | .ok k => .ok (s.advance.skipIf s.keys[k])

/-- SKNP Vx (R343). -/
def execSknpVx (x : Reg) (s : State) : Result :=
  s.finish <|
    match s.keyIndex (s.getV x) with
    | .error t => .error t
    | .ok k => .ok (s.advance.skipIf (!s.keys[k]))

/-- LD Vx,DT (R344). -/
def execLdVxDt (x : Reg) (s : State) : Result := .next (s.advance.setV x s.dt)

/-- LD Vx,K (R345): with no key held, PC goes back to this instruction; else the lowest held key. -/
def execLdVxK (x : Reg) (s : State) : Result :=
  .next
    (match lowestKey s.keys with
    | none => s.advance.rewind
    | some k => s.advance.setV x (BitVec.ofNat 8 k.val))

/-- LD DT,Vx (R346). -/
def execLdDtVx (x : Reg) (s : State) : Result := .next { s.advance with dt := s.getV x }

/-- LD ST,Vx (R347). -/
def execLdStVx (x : Reg) (s : State) : Result := .next { s.advance with st := s.getV x }

end Sys2Proof.Machine
end

