-- ==== Sys2Proof/Machine/Iteration.lean ====
section
/-! DEFINITION. Fetch and the step (40_control_flow.md R200 to R204), the iteration (70_reset_and_hazards.md
R603), timer decay (43_timers_keys.md R348, R349), quit (60_exceptions.md R513), and where the host's inputs come
from. -/

namespace Sys2Proof.Machine

/-- The fetch of R200: the checks of R201 and R202, then the two bytes, high byte first (R83). -/
def State.fetch (s : State) : Except Trap Word :=
  if s.pc.toNat % 2 = 1 then .error ⟨.invalidAddress, s.pc.toNat⟩
  else if s.pc.toNat > 0xFFE then .error ⟨.memoryOutOfRange, s.pc.toNat⟩
  else .ok (wordOfBytes (s.mem.read s.pc.toNat) (s.mem.read (s.pc.toNat + 1)))

/-- `step()` of R200. -/
def cpuStep (s : State) : Result :=
  match s.fetch with
  | .error t => .next (s.raise t)
  | .ok w =>
    match decodeWord w with
    | .ok i => exec i s
    | .error _ => execUnknown w s

/-- The input poll, which sets the latch, with the iteration's random draw (R340, R603, R263). -/
def State.poll (s : State) (keysIn : Keys) (rnd : Byte) : State := { s with keys := keysIn, rnd := rnd }

/-- One timer's decrement, not below 0 (R348). -/
def tickDown (b : Byte) : Byte := if b.toNat > 0 then b - 1 else 0

/-- `tick()` (R348) when the iteration ticks and the machine still runs (R349, R603). -/
def State.tickIf (s : State) (tick : Bool) : State :=
  { s with
    dt := if tick && s.status == .running then tickDown s.dt else s.dt
    st := if tick && s.status == .running then tickDown s.st else s.st }

/-- `iterate(keys_in, tick, rnd)` of R603. -/
def State.iterate (s : State) (keysIn : Keys) (tick : Bool) (rnd : Byte) : Result :=
  match cpuStep (s.poll keysIn rnd) with
  | .next t => .next (t.tickIf tick)
  | .fault r => .fault r
  | .refused r => .refused r

/-- Quit (R513). -/
def State.quit (s : State) : State := { s with status := .terminated }

/-- One turn of a RUNNING machine: the oldest listed host event, or, when none is listed, an iteration
whose three inputs are Config's free values (log entry 2). -/
def State.turn (s : State) : Result :=
  match s.events with
  | .iteration keysIn tick rnd :: rest => { s with events := rest }.iterate keysIn tick rnd
  | .quit :: rest => .next { s with events := rest }.quit
  | [] =>
    { s with draws := s.draws + 1 }.iterate (Config.freeKeys s.draws) (Config.freeTick s.draws)
      (Config.freeRnd s.draws)

/-- The machine moves only while STATUS = RUNNING (R603); a run that is over stays over (R607). -/
def State.move (s : State) : Result :=
  match s.status with
  | .running => s.turn
  | .faulted code fpc info => .fault (.halted code fpc info)
  | .terminated => .fault .terminated

/-- The instruction word placed at PC, where the next fetch reads it; the host's own write, outside the
checks of R82. An address outside memory takes nothing. -/
def State.placeWord (s : State) (w : Word) : State :=
  { s with mem := if s.pc.toNat > 0xFFE then s.mem else s.mem.place s.pc.toNat (wordBytes w) }

/-- What the block shows the host after an iteration (R604): disp, st and status. -/
structure Output where
  disp : Display
  st : Byte
  status : Status
deriving DecidableEq, Repr

/-- The outputs of R604, R305 and R350. -/
def State.output (s : State) : Output := { disp := s.disp, st := s.st, status := s.status }

end Sys2Proof.Machine
end

