-- ==== Sys2Proof/Machine/Reset.lean ====
section
/-! DEFINITION. Reset by the host (70_reset_and_hazards.md R600, R601), with every parameter of R5. -/

namespace Sys2Proof.Machine

/-- MAX_ROM (R5). -/
def maxRom : Nat := memSize - programBase

/-- ROMLoadError with its info (R501): the ROM's length, or none if the ROM was unreadable. -/
structure RomFault where
  code : FaultCode
  info : Option Nat
deriving DecidableEq, Repr

/-- `reset(rom)` (R600); `none` is an unreadable ROM. The state is `State.reset` with the machine's
parameters, FONT at 0x050, the ROM at 0x200 and PC at ENTRY_PC. -/
def State.load (p : Config.ResetParams) (rom : Option (List Byte)) : Except RomFault State :=
  match rom with
  | none => .error ⟨.romLoadError, none⟩
  | some bytes =>
    if bytes.length > maxRom then .error ⟨.romLoadError, some bytes.length⟩
    else
      .ok { State.reset with
        policy := p.policies
        pc := p.entryPc
        mem := (Memory.place [] fontBase p.font.toList).place programBase bytes }

end Sys2Proof.Machine
end

