-- ==== Sys2Proof/Safety.lean ====
section
/-! DEFINITION. The terms claims are stated in: how a run stands, PARKED (70_reset_and_hazards.md R607), the
machine's invariant, what an instruction leaves unchanged, and which words are of a form. -/

namespace Sys2Proof.Machine

/-- The machine performs iterations (R40). -/
def State.Running (s : State) : Prop := s.status = .running

/-- A run that has not failed (R607: FAULTED is a failed end). -/
def State.Safe (s : State) : Prop := ∀ code fpc info, s.status ≠ .faulted code fpc info

/-- PARKED at `h` (R607): running, PC = h even and at most 0xFFE, and the word at h is `JP h`. -/
def State.Parked (s : State) (h : Nat) : Prop :=
  s.status = .running ∧ s.pc.toNat = h ∧ h % 2 = 0 ∧ h ≤ 0xFFE ∧
    (s.mem.read h).toNat * 256 + (s.mem.read (h + 1)).toNat = 0x1000 + h

/-- Weak fairness of ticks (R608), for the ticks of an infinite run. -/
def WeaklyFair (ticks : Nat → Bool) : Prop := ∀ n, ∃ m, n ≤ m ∧ ticks m = true

/-! ### The invariant -/

/-- Every return address is even and at most 0x1000: CALL pushes the even address after itself
(R201, R202, R207). -/
def State.StackAligned (s : State) : Prop :=
  ∀ k : Fin 16, s.stack[k].toNat % 2 = 0 ∧ s.stack[k].toNat ≤ 0x1000

/-- PC is at most 0x10FE, the largest value any instruction writes (R32, R212). -/
def State.PcBounded (s : State) : Prop := s.pc.toNat ≤ 0x10FE

/-- Under STACK_POLICY = WRAP, SP is exactly 4 bits (R34). -/
def State.DepthLegal (s : State) : Prop := s.policy.stack = .wrap → s.sp.val ≤ 15

/-- What every step keeps. -/
def State.Inv (s : State) : Prop :=
  s.mem.wf = true ∧ s.StackAligned ∧ s.PcBounded ∧ s.DepthLegal

/-! ### Frames: what `t` has as `s` has -/

/-- Every general register outside `P`. -/
def KeepsRegs (P : Reg → Prop) (s t : State) : Prop := ∀ r, ¬ P r → t.getV r = s.getV r

/-- The index register. -/
def KeepsIndex (s t : State) : Prop := t.i = s.i

/-- SP and all 16 slots. -/
def KeepsStack (s t : State) : Prop := t.sp = s.sp ∧ ∀ k : Fin 16, t.stack[k] = s.stack[k]

/-- Both timers. -/
def KeepsTimers (s t : State) : Prop := t.dt = s.dt ∧ t.st = s.st

/-- Every byte of memory at an address outside `P`. -/
def KeepsMemory (P : Nat → Prop) (s t : State) : Prop := ∀ a, ¬ P a → t.mem.read a = s.mem.read a

/-- Every display cell. -/
def KeepsDisplay (s t : State) : Prop := ∀ px py, t.disp.pixel px py = s.disp.pixel px py

/-- The run state, the Input Latch, and the model's own fields. -/
def KeepsRun (s t : State) : Prop :=
  t.status = s.status ∧ t.keys = s.keys ∧ t.policy = s.policy ∧ t.rnd = s.rnd ∧ t.events = s.events ∧
    t.draws = s.draws

/-- Everything but PC and the general registers in `P`. -/
def OnlyRegs (P : Reg → Prop) (s t : State) : Prop :=
  KeepsRegs P s t ∧ KeepsIndex s t ∧ KeepsStack s t ∧ KeepsTimers s t ∧
    KeepsMemory (fun _ => False) s t ∧ KeepsDisplay s t ∧ KeepsRun s t

/-- No register. -/
def noReg : Reg → Prop := fun _ => False

/-- Everything but PC and the bytes of memory at the addresses in `P`. -/
def OnlyBytes (P : Nat → Prop) (s t : State) : Prop :=
  KeepsRegs noReg s t ∧ KeepsIndex s t ∧ KeepsStack s t ∧ KeepsTimers s t ∧ KeepsMemory P s t ∧
    KeepsDisplay s t ∧ KeepsRun s t

/-- Everything but PC and I. -/
def OnlyIndex (s t : State) : Prop :=
  KeepsRegs noReg s t ∧ KeepsStack s t ∧ KeepsTimers s t ∧ KeepsMemory (fun _ => False) s t ∧
    KeepsDisplay s t ∧ KeepsRun s t

/-- Everything but PC, SP and the slots in `P`. -/
def OnlySlots (P : Fin 16 → Prop) (s t : State) : Prop :=
  KeepsRegs noReg s t ∧ KeepsIndex s t ∧ (∀ k : Fin 16, ¬ P k → t.stack[k] = s.stack[k]) ∧ KeepsTimers s t ∧
    KeepsMemory (fun _ => False) s t ∧ KeepsDisplay s t ∧ KeepsRun s t

/-- Everything but PC, the display and the general registers in `P`. -/
def OnlyDisplay (P : Reg → Prop) (s t : State) : Prop :=
  KeepsRegs P s t ∧ KeepsIndex s t ∧ KeepsStack s t ∧ KeepsTimers s t ∧ KeepsMemory (fun _ => False) s t ∧
    KeepsRun s t

/-- Everything but PC and the timers. -/
def OnlyTimers (s t : State) : Prop :=
  KeepsRegs noReg s t ∧ KeepsIndex s t ∧ KeepsStack s t ∧ KeepsMemory (fun _ => False) s t ∧
    KeepsDisplay s t ∧ KeepsRun s t

/-- A data write at `a` passes the checks of R82. -/
def State.Writable (s : State) (a : Nat) : Prop :=
  a ≤ 0xFFF ∧ (s.policy.lowWrite = .fault → 0x200 ≤ a)

/-- The sprite bit of row `r`, column offset `c` that a DRW begun at `s` draws is set (R302). -/
def SpriteBit (s : State) (r c : Nat) : Prop := (s.mem.read (s.i.toNat + r)).getLsbD (7 - c) = true

/-- A DRW Vx,Vy,n begun at `s` draws a set bit on the cell (`px`, `py`): under CLIP the pixel's own
coordinates, under WRAP each modulo the grid (R302, R303). -/
def SpriteHits (s : State) (x y : Reg) (n : Fin 16) (px : Fin 64) (py : Fin 32) : Prop :=
  ∃ r c : Nat, r < n.val ∧ c < 8 ∧ SpriteBit s r c ∧
    match s.policy.edge with
    | .clip => (s.getV x).toNat % 64 + c = px.val ∧ (s.getV y).toNat % 32 + r = py.val
    | .wrap => ((s.getV x).toNat % 64 + c) % 64 = px.val ∧ ((s.getV y).toNat % 32 + r) % 32 = py.val

/-- A step begun at `s` that faulted: everything as it stood, and STATUS records the fault (R204). -/
def FaultsWith (s t : State) (code : FaultCode) (info : Nat) : Prop :=
  t = { s with status := .faulted code s.pc info }

/-- Which instruction may raise which fault, with which info (R501): no other instruction faults in its own
step. -/
def MayRaise : Instr → FaultCode → Nat → Prop
  | .ret, c, n => c = .stackUnderflow ∧ n = 0
  | .callNnn _, c, n => c = .stackOverflow ∧ n = 16
  | .drwVxVyN _ _ _, c, n | .ldVxMem _, c, n => c = .memoryOutOfRange ∧ 0xFFF < n
  | .ldBVx _, c, n | .ldMemVx _, c, n =>
    (c = .memoryOutOfRange ∧ 0xFFF < n) ∨ (c = .protectedWrite ∧ n < 0x200)
  | .skpVx _, c, n | .sknpVx _, c, n => c = .invalidKeyIndex ∧ 15 < n
  | _, _, _ => False

/-- The timers after `n` iterations with these ticks and no instruction that loads a timer (R349). -/
def decay (ticks : Nat → Bool) (s : State) : Nat → State
  | 0 => s
  | n + 1 => (decay ticks s n).tickIf (ticks n)

/-- The flag of a subtraction `a - b` as a number: 1 when there is no borrow (R250). -/
def noBorrow (a b : Nat) : Nat := if b ≤ a then 1 else 0

/-- `(a - b) mod 256` of two bytes' values, as a number (R7, R250). -/
def sub256 (a b : Nat) : Nat := (a + 256 - b) % 256

/-- Every word with these masked bits decodes to the form `build` makes of its fields, whatever its other
bits are (R124, R130, R134). -/
def Decodes (mask pattern : Word) (build : Word → Instr) : Prop :=
  ∀ w : Word, w &&& mask = pattern → decodeWord w = .ok (build w)

end Sys2Proof.Machine
end

