-- ==== Sys2Proof/Certificates/Slice0/Obligations.lean ====
section
/-! DEFINITION. The statements for the provers. Each instruction's statement says its encoding (30_encoding.md
R134), that `exec` answers a next state, what that state holds, and what it leaves unchanged; register F is
written 15. -/

open Sys2Proof Sys2Proof.Machine

/-! ### Control transfer (40_control_flow.md) -/

/-- R205: RET pops PC, or faults on an empty stack under FAULT; the popped slot keeps its value. -/
def Obligations.RetPopsIntoPc : Prop :=
  Decodes 0xF0FF 0x00EE (fun _ => .ret) ∧
  ∀ s : State,
    (s.policy.stack = .fault → s.sp.val = 0 →
      ∃ t, exec .ret s = .next t ∧ FaultsWith s t .stackUnderflow 0) ∧
    (s.policy.stack = .fault → 0 < s.sp.val →
      ∃ t, exec .ret s = .next t ∧ t.sp.val = s.sp.val - 1 ∧
        (∀ k : Fin 16, k.val = s.sp.val - 1 → t.pc = s.stack[k]) ∧ OnlySlots (fun _ => False) s t) ∧
    (s.policy.stack = .wrap →
      ∃ t, exec .ret s = .next t ∧ t.sp.val = (s.sp.val + 15) % 16 ∧
        (∀ k : Fin 16, k.val = (s.sp.val + 15) % 16 → t.pc = s.stack[k]) ∧
        OnlySlots (fun _ => False) s t)

/-- R207: CALL pushes the address after its own two bytes and jumps, or faults on a full stack under FAULT. -/
def Obligations.CallPushesReturnAddress : Prop :=
  Decodes 0xF000 0x2000 (fun w => .callNnn w.nnn) ∧
  ∀ (nnn : Addr12) (s : State),
    (s.policy.stack = .fault → s.sp.val = 16 →
      ∃ t, exec (.callNnn nnn) s = .next t ∧ FaultsWith s t .stackOverflow 16) ∧
    (s.policy.stack = .fault → s.sp.val < 16 →
      ∃ t, exec (.callNnn nnn) s = .next t ∧ t.pc.toNat = nnn.toNat ∧ t.sp.val = s.sp.val + 1 ∧
        (∀ k : Fin 16, k.val = s.sp.val → t.stack[k] = s.pc + 2) ∧
        OnlySlots (fun k => k.val = s.sp.val) s t) ∧
    (s.policy.stack = .wrap →
      ∃ t, exec (.callNnn nnn) s = .next t ∧ t.pc.toNat = nnn.toNat ∧ t.sp.val = (s.sp.val + 1) % 16 ∧
        (∀ k : Fin 16, k.val = s.sp.val % 16 → t.stack[k] = s.pc + 2) ∧
        OnlySlots (fun k => k.val = s.sp.val % 16) s t)

/-- R206: JP sets PC to the zero-extended address. -/
def Obligations.JpSetsPc : Prop :=
  Decodes 0xF000 0x1000 (fun w => .jpNnn w.nnn) ∧
  ∀ (nnn : Addr12) (s : State),
    ∃ t, exec (.jpNnn nnn) s = .next t ∧ t.pc.toNat = nnn.toNat ∧ OnlyRegs noReg s t

/-- R212: JP V0 sets PC to V0 plus the address, without wrap, and its register is always V0. -/
def Obligations.JpV0AddsV0 : Prop :=
  Decodes 0xF000 0xB000 (fun w => .jpV0Nnn w.nnn) ∧
  ∀ (nnn : Addr12) (s : State),
    ∃ t, exec (.jpV0Nnn nnn) s = .next t ∧ t.pc.toNat = (s.getV 0).toNat + nnn.toNat ∧
      OnlyRegs noReg s t

/-- R208, R209: the immediate skips go on at a + 4 when their condition holds and at a + 2 otherwise. -/
def Obligations.ImmediateSkips : Prop :=
  Decodes 0xF000 0x3000 (fun w => .seVxKk w.x w.kk) ∧
  Decodes 0xF000 0x4000 (fun w => .sneVxKk w.x w.kk) ∧
  ∀ (x : Reg) (kk : Byte) (s : State),
    (∃ t, exec (.seVxKk x kk) s = .next t ∧
      t.pc = (if s.getV x = kk then s.pc + 4 else s.pc + 2) ∧ OnlyRegs noReg s t) ∧
    (∃ t, exec (.sneVxKk x kk) s = .next t ∧
      t.pc = (if s.getV x = kk then s.pc + 2 else s.pc + 4) ∧ OnlyRegs noReg s t)

/-- R210, R211: the register skips, whatever the low nibble of the word is. -/
def Obligations.RegisterSkips : Prop :=
  Decodes 0xF000 0x5000 (fun w => .seVxVy w.x w.y) ∧
  Decodes 0xF000 0x9000 (fun w => .sneVxVy w.x w.y) ∧
  ∀ (x y : Reg) (s : State),
    (∃ t, exec (.seVxVy x y) s = .next t ∧
      t.pc = (if s.getV x = s.getV y then s.pc + 4 else s.pc + 2) ∧ OnlyRegs noReg s t) ∧
    (∃ t, exec (.sneVxVy x y) s = .next t ∧
      t.pc = (if s.getV x = s.getV y then s.pc + 2 else s.pc + 4) ∧ OnlyRegs noReg s t)

/-- R207, R205: a CALL that completes and a later RET with the stack as the CALL left it come back to the
instruction after the CALL, with the depth before it. -/
def Obligations.CallThenReturn : Prop :=
  ∀ (nnn : Addr12) (s : State), s.sp.val ≤ 15 →
    ∃ t, exec (.callNnn nnn) s = .next t ∧
      ∀ u : State, u.policy = t.policy → u.sp = t.sp → u.stack = t.stack →
        ∃ r, exec .ret u = .next r ∧ r.pc = s.pc + 2 ∧ r.sp = s.sp

/-! ### Loads, arithmetic and logic (41_alu.md) -/

/-- R252. -/
def Obligations.LoadImmediate : Prop :=
  Decodes 0xF000 0x6000 (fun w => .ldVxKk w.x w.kk) ∧
  ∀ (x : Reg) (kk : Byte) (s : State),
    ∃ t, exec (.ldVxKk x kk) s = .next t ∧ t.getV x = kk ∧ t.pc = s.pc + 2 ∧ OnlyRegs (· = x) s t

/-- R253: the sum wraps and no flag is written. -/
def Obligations.AddImmediateNoFlag : Prop :=
  Decodes 0xF000 0x7000 (fun w => .addVxKk w.x w.kk) ∧
  ∀ (x : Reg) (kk : Byte) (s : State),
    ∃ t, exec (.addVxKk x kk) s = .next t ∧
      (t.getV x).toNat = ((s.getV x).toNat + kk.toNat) % 256 ∧ t.pc = s.pc + 2 ∧ OnlyRegs (· = x) s t

/-- R254. -/
def Obligations.CopyRegister : Prop :=
  Decodes 0xF00F 0x8000 (fun w => .ldVxVy w.x w.y) ∧
  ∀ (x y : Reg) (s : State),
    ∃ t, exec (.ldVxVy x y) s = .next t ∧ t.getV x = s.getV y ∧ t.pc = s.pc + 2 ∧ OnlyRegs (· = x) s t

/-- R255, R256, R257: bit by bit, with VF untouched unless it is Vx. -/
def Obligations.LogicBitwise : Prop :=
  Decodes 0xF00F 0x8001 (fun w => .orVxVy w.x w.y) ∧
  Decodes 0xF00F 0x8002 (fun w => .andVxVy w.x w.y) ∧
  Decodes 0xF00F 0x8003 (fun w => .xorVxVy w.x w.y) ∧
  ∀ (x y : Reg) (s : State),
    (∃ t, exec (.orVxVy x y) s = .next t ∧
      (∀ b < 8, (t.getV x).getLsbD b = ((s.getV x).getLsbD b || (s.getV y).getLsbD b)) ∧
      t.pc = s.pc + 2 ∧ OnlyRegs (· = x) s t) ∧
    (∃ t, exec (.andVxVy x y) s = .next t ∧
      (∀ b < 8, (t.getV x).getLsbD b = ((s.getV x).getLsbD b && (s.getV y).getLsbD b)) ∧
      t.pc = s.pc + 2 ∧ OnlyRegs (· = x) s t) ∧
    (∃ t, exec (.xorVxVy x y) s = .next t ∧
      (∀ b < 8, (t.getV x).getLsbD b = ((s.getV x).getLsbD b != (s.getV y).getLsbD b)) ∧
      t.pc = s.pc + 2 ∧ OnlyRegs (· = x) s t)

/-- R258: the sum in Vx and the carry in VF; with x = F the carry stays and the sum is lost. -/
def Obligations.AddSetsCarry : Prop :=
  Decodes 0xF00F 0x8004 (fun w => .addVxVy w.x w.y) ∧
  ∀ (x y : Reg) (s : State),
    ∃ t, exec (.addVxVy x y) s = .next t ∧
      (x ≠ 15 → (t.getV x).toNat = ((s.getV x).toNat + (s.getV y).toNat) % 256) ∧
      (t.getV 15).toNat = (if (s.getV x).toNat + (s.getV y).toNat > 255 then 1 else 0) ∧
      t.pc = s.pc + 2 ∧ OnlyRegs (fun r => r = x ∨ r = 15) s t

/-- R259, every aliasing of VF under both modes. -/
def Obligations.SubSetsNoBorrow : Prop :=
  Decodes 0xF00F 0x8005 (fun w => .subVxVy w.x w.y) ∧
  ∀ (x y : Reg) (s : State) (vx vy : Nat), vx = (s.getV x).toNat → vy = (s.getV y).toNat →
    ∃ t, exec (.subVxVy x y) s = .next t ∧ t.pc = s.pc + 2 ∧ OnlyRegs (fun r => r = x ∨ r = 15) s t ∧
      (x ≠ 15 → (t.getV 15).toNat = noBorrow vx vy) ∧
      (x ≠ 15 → y ≠ 15 → (t.getV x).toNat = sub256 vx vy) ∧
      (s.policy.aliasing = .sequential → x ≠ 15 → y = 15 →
        (t.getV x).toNat = sub256 vx (noBorrow vx vy)) ∧
      (s.policy.aliasing = .sequential → x = 15 → y ≠ 15 →
        (t.getV 15).toNat = sub256 (noBorrow vx vy) vy) ∧
      (s.policy.aliasing = .sequential → x = 15 → y = 15 → (t.getV 15).toNat = 0) ∧
      (s.policy.aliasing = .flagLast → x ≠ 15 → y = 15 → (t.getV x).toNat = sub256 vx vy) ∧
      (s.policy.aliasing = .flagLast → x = 15 → (t.getV 15).toNat = noBorrow vx vy)

/-- R261, every aliasing of VF under both modes. -/
def Obligations.SubnSetsNoBorrow : Prop :=
  Decodes 0xF00F 0x8007 (fun w => .subnVxVy w.x w.y) ∧
  ∀ (x y : Reg) (s : State) (vx vy : Nat), vx = (s.getV x).toNat → vy = (s.getV y).toNat →
    ∃ t, exec (.subnVxVy x y) s = .next t ∧ t.pc = s.pc + 2 ∧ OnlyRegs (fun r => r = x ∨ r = 15) s t ∧
      (x ≠ 15 → (t.getV 15).toNat = noBorrow vy vx) ∧
      (x ≠ 15 → y ≠ 15 → (t.getV x).toNat = sub256 vy vx) ∧
      (s.policy.aliasing = .sequential → x ≠ 15 → y = 15 →
        (t.getV x).toNat = sub256 (noBorrow vy vx) vx) ∧
      (s.policy.aliasing = .sequential → x = 15 → y ≠ 15 →
        (t.getV 15).toNat = sub256 vy (noBorrow vy vx)) ∧
      (s.policy.aliasing = .sequential → x = 15 → y = 15 → (t.getV 15).toNat = 0) ∧
      (s.policy.aliasing = .flagLast → x ≠ 15 → y = 15 → (t.getV x).toNat = sub256 vy vx) ∧
      (s.policy.aliasing = .flagLast → x = 15 → (t.getV 15).toNat = noBorrow vy vx)

/-- R260: the old bit 0 goes to VF; with x = F, SEQUENTIAL leaves 0 and FLAG_LAST the flag. -/
def Obligations.ShrShiftsOutLowBit : Prop :=
  Decodes 0xF00F 0x8006 (fun w => .shrVx w.x) ∧
  ∀ (x : Reg) (s : State),
    ∃ t, exec (.shrVx x) s = .next t ∧ t.pc = s.pc + 2 ∧ OnlyRegs (fun r => r = x ∨ r = 15) s t ∧
      (x ≠ 15 → (t.getV x).toNat = (s.getV x).toNat / 2 ∧ (t.getV 15).toNat = (s.getV x).toNat % 2) ∧
      (s.policy.aliasing = .sequential → x = 15 → (t.getV 15).toNat = 0) ∧
      (s.policy.aliasing = .flagLast → x = 15 → (t.getV 15).toNat = (s.getV x).toNat % 2)

/-- R262: the old bit 7 goes to VF; with x = F, SEQUENTIAL leaves twice that bit and FLAG_LAST the bit. -/
def Obligations.ShlShiftsOutHighBit : Prop :=
  Decodes 0xF00F 0x800E (fun w => .shlVx w.x) ∧
  ∀ (x : Reg) (s : State),
    ∃ t, exec (.shlVx x) s = .next t ∧ t.pc = s.pc + 2 ∧ OnlyRegs (fun r => r = x ∨ r = 15) s t ∧
      (x ≠ 15 → (t.getV x).toNat = (s.getV x).toNat * 2 % 256 ∧
        (t.getV 15).toNat = (s.getV x).toNat / 128) ∧
      (s.policy.aliasing = .sequential → x = 15 → (t.getV 15).toNat = 2 * ((s.getV x).toNat / 128)) ∧
      (s.policy.aliasing = .flagLast → x = 15 → (t.getV 15).toNat = (s.getV x).toNat / 128)

/-- R263: the drawn byte, whatever it is, masked by kk; the draw is the iteration's own. -/
def Obligations.RndMasksTheDraw : Prop :=
  Decodes 0xF000 0xC000 (fun w => .rndVxKk w.x w.kk) ∧
  (∀ (x : Reg) (kk : Byte) (s : State),
    ∃ t, exec (.rndVxKk x kk) s = .next t ∧
      (∀ b < 8, (t.getV x).getLsbD b = (s.rnd.getLsbD b && kk.getLsbD b)) ∧
      t.pc = s.pc + 2 ∧ OnlyRegs (· = x) s t) ∧
  (∀ (x : Reg) (kk : Byte) (s : State) (w : Word) (keysIn : Keys) (tick : Bool) (rnd : Byte),
    s.fetch = .ok w → decodeWord w = .ok (.rndVxKk x kk) →
      ∃ t, s.iterate keysIn tick rnd = .next t ∧ t.getV x = rnd &&& kk)

/-! ### Display (42_display.md) -/

/-- R301. -/
def Obligations.ClsClearsEveryCell : Prop :=
  Decodes 0xF0FF 0x00E0 (fun _ => .cls) ∧
  ∀ s : State,
    ∃ t, exec .cls s = .next t ∧ (∀ px py, t.disp.pixel px py = false) ∧ t.pc = s.pc + 2 ∧
      OnlyDisplay noReg s t

/-- R302, R303: with every row readable, each cell a set sprite bit lands on is inverted, every other cell
stays, and VF says whether such a cell was on; else MemoryOutOfRange at the lowest failing address. -/
def Obligations.DrwXorsTheSprite : Prop :=
  Decodes 0xF000 0xD000 (fun w => .drwVxVyN w.x w.y w.n) ∧
  ∀ (x y : Reg) (n : Fin 16) (s : State),
    ((∀ r < n.val, s.i.toNat + r ≤ 0xFFF) →
      ∃ t, exec (.drwVxVyN x y n) s = .next t ∧ t.pc = s.pc + 2 ∧ OnlyDisplay (· = 15) s t ∧
        (∀ px py, SpriteHits s x y n px py → t.disp.pixel px py = !s.disp.pixel px py) ∧
        (∀ px py, ¬ SpriteHits s x y n px py → t.disp.pixel px py = s.disp.pixel px py) ∧
        ((∃ px py, SpriteHits s x y n px py ∧ s.disp.pixel px py = true) → t.getV 15 = 1) ∧
        (¬ (∃ px py, SpriteHits s x y n px py ∧ s.disp.pixel px py = true) → t.getV 15 = 0)) ∧
    (∀ r < n.val, 0xFFF < s.i.toNat + r → (∀ j < r, s.i.toNat + j ≤ 0xFFF) →
      ∃ t, exec (.drwVxVyN x y n) s = .next t ∧ FaultsWith s t .memoryOutOfRange (s.i.toNat + r))

/-- R304, items 2 and 3: a DRW on a clear display reports no collision, and a second DRW of the same sprite
restores the display and reports a collision exactly when the first turned a pixel on (x and y not F). The
last clause is the model's reading of item 2's "drew", by R302 (log entry 8). -/
def Obligations.DrwTwiceRestores : Prop :=
  ∀ (x y : Reg) (n : Fin 16) (s : State), (∀ r < n.val, s.i.toNat + r ≤ 0xFFF) → x ≠ 15 → y ≠ 15 →
    ∃ t u, exec (.drwVxVyN x y n) s = .next t ∧ exec (.drwVxVyN x y n) t = .next u ∧
      ((∀ px py, s.disp.pixel px py = false) → t.getV 15 = 0) ∧
      (∀ px py, u.disp.pixel px py = s.disp.pixel px py) ∧
      (u.getV 15 = 1 ↔ ∃ px py, s.disp.pixel px py = false ∧ t.disp.pixel px py = true)

/-! ### Keys and timers (43_timers_keys.md) -/

/-- R341, R342, R343: the key skips, with the key index checked or taken modulo 16. -/
def Obligations.KeySkips : Prop :=
  Decodes 0xF0FF 0xE09E (fun w => .skpVx w.x) ∧
  Decodes 0xF0FF 0xE0A1 (fun w => .sknpVx w.x) ∧
  ∀ (x : Reg) (s : State),
    (((s.getV x).toNat ≤ 15 ∨ s.policy.keyIndex = .lowNibble) →
      ∀ k : Fin 16, k.val = (s.getV x).toNat % 16 →
        (∃ t, exec (.skpVx x) s = .next t ∧
          t.pc = (if s.keys[k] = true then s.pc + 4 else s.pc + 2) ∧ OnlyRegs noReg s t) ∧
        (∃ t, exec (.sknpVx x) s = .next t ∧
          t.pc = (if s.keys[k] = true then s.pc + 2 else s.pc + 4) ∧ OnlyRegs noReg s t)) ∧
    (15 < (s.getV x).toNat → s.policy.keyIndex = .fault →
      (∃ t, exec (.skpVx x) s = .next t ∧ FaultsWith s t .invalidKeyIndex (s.getV x).toNat) ∧
      (∃ t, exec (.sknpVx x) s = .next t ∧ FaultsWith s t .invalidKeyIndex (s.getV x).toNat))

/-- R345: with no key held the same instruction is fetched again and nothing changes; else the lowest held
key goes to Vx. -/
def Obligations.KeyWait : Prop :=
  Decodes 0xF0FF 0xF00A (fun w => .ldVxK w.x) ∧
  ∀ (x : Reg) (s : State),
    ((∀ k : Fin 16, s.keys[k] = false) →
      ∃ t, exec (.ldVxK x) s = .next t ∧ t.pc = s.pc ∧ OnlyRegs noReg s t) ∧
    (∀ k : Fin 16, s.keys[k] = true → (∀ j : Fin 16, j < k → s.keys[j] = false) →
      ∃ t, exec (.ldVxK x) s = .next t ∧ (t.getV x).toNat = k.val ∧ t.pc = s.pc + 2 ∧
        OnlyRegs (· = x) s t)

/-- R344, R346, R347: reading DT, and writing DT and ST. -/
def Obligations.TimerLoads : Prop :=
  Decodes 0xF0FF 0xF007 (fun w => .ldVxDt w.x) ∧
  Decodes 0xF0FF 0xF015 (fun w => .ldDtVx w.x) ∧
  Decodes 0xF0FF 0xF018 (fun w => .ldStVx w.x) ∧
  ∀ (x : Reg) (s : State),
    (∃ t, exec (.ldVxDt x) s = .next t ∧ t.getV x = s.dt ∧ t.pc = s.pc + 2 ∧ OnlyRegs (· = x) s t) ∧
    (∃ t, exec (.ldDtVx x) s = .next t ∧ t.dt = s.getV x ∧ t.st = s.st ∧ t.pc = s.pc + 2 ∧
      OnlyTimers s t) ∧
    (∃ t, exec (.ldStVx x) s = .next t ∧ t.st = s.getV x ∧ t.dt = s.dt ∧ t.pc = s.pc + 2 ∧
      OnlyTimers s t)

/-- R348, with R349's gate: one decrement of both timers, not below 0, when the iteration ticks and the
machine runs; otherwise nothing. PC and everything else stay. -/
def Obligations.TickDecrementsBoth : Prop :=
  ∀ (s : State) (tick : Bool),
    (s.status = .running → tick = true →
      (s.tickIf tick).dt.toNat = s.dt.toNat - 1 ∧ (s.tickIf tick).st.toNat = s.st.toNat - 1) ∧
    ((s.status ≠ .running ∨ tick = false) → s.tickIf tick = s) ∧
    OnlyTimers s (s.tickIf tick) ∧ (s.tickIf tick).pc = s.pc

/-- R603: the latch is set first, then one step, then at most one tick; after a fault no tick. -/
def Obligations.IterationOrder : Prop :=
  ∀ (s u : State) (keysIn : Keys) (tick : Bool) (rnd : Byte),
    cpuStep { s with keys := keysIn, rnd := rnd } = .next u →
      ∃ t, s.iterate keysIn tick rnd = .next t ∧ t.keys = u.keys ∧ t.pc = u.pc ∧ OnlyTimers u t ∧
        ((u.status = .running ∧ tick = true) →
          t.dt.toNat = u.dt.toNat - 1 ∧ t.st.toNat = u.st.toNat - 1) ∧
        (¬ (u.status = .running ∧ tick = true) → t.dt = u.dt ∧ t.st = u.st)

/-- R35: in an iteration that does not execute the load instruction of a timer, that timer falls by at
most 1 and does not rise. -/
def Obligations.TimersNeverRise : Prop :=
  ∀ (s t : State) (keysIn : Keys) (tick : Bool) (rnd : Byte), s.iterate keysIn tick rnd = .next t →
    ((∀ w x, s.fetch = .ok w → decodeWord w ≠ .ok (.ldDtVx x)) →
      t.dt.toNat ≤ s.dt.toNat ∧ s.dt.toNat ≤ t.dt.toNat + 1) ∧
    ((∀ w x, s.fetch = .ok w → decodeWord w ≠ .ok (.ldStVx x)) →
      t.st.toNat ≤ s.st.toNat ∧ s.st.toNat ≤ t.st.toNat + 1)

/-- R348, R608: under weakly fair ticks both timers of a running machine that no instruction reloads reach 0
and stay there. -/
def Obligations.FairTicksReachZero : Prop :=
  ∀ (ticks : Nat → Bool) (s : State), WeaklyFair ticks → s.status = .running →
    ∃ n, ∀ m, n ≤ m → (decay ticks s m).dt = 0 ∧ (decay ticks s m).st = 0

/-! ### Index and memory (44_index_memory.md, 20_memory.md) -/

/-- R390. -/
def Obligations.LoadIndex : Prop :=
  Decodes 0xF000 0xA000 (fun w => .ldINnn w.nnn) ∧
  ∀ (nnn : Addr12) (s : State),
    ∃ t, exec (.ldINnn nnn) s = .next t ∧ t.i.toNat = nnn.toNat ∧ t.pc = s.pc + 2 ∧ OnlyIndex s t

/-- R391: modulo 2^16, with VF not written. -/
def Obligations.AddIndexWraps : Prop :=
  Decodes 0xF0FF 0xF01E (fun w => .addIVx w.x) ∧
  ∀ (x : Reg) (s : State),
    ∃ t, exec (.addIVx x) s = .next t ∧ t.i.toNat = (s.i.toNat + (s.getV x).toNat) % 65536 ∧
      t.pc = s.pc + 2 ∧ OnlyIndex s t

/-- R392: unmasked. -/
def Obligations.GlyphAddressUnmasked : Prop :=
  Decodes 0xF0FF 0xF029 (fun w => .ldFVx w.x) ∧
  ∀ (x : Reg) (s : State),
    ∃ t, exec (.ldFVx x) s = .next t ∧ t.i.toNat = 0x050 + 5 * (s.getV x).toNat ∧ t.pc = s.pc + 2 ∧
      OnlyIndex s t

/-- R393: the three digits, or the fault of the lowest failing address with nothing written. -/
def Obligations.BcdStore : Prop :=
  Decodes 0xF0FF 0xF033 (fun w => .ldBVx w.x) ∧
  ∀ (x : Reg) (s : State),
    ((∀ k < 3, s.Writable (s.i.toNat + k)) →
      ∃ t, exec (.ldBVx x) s = .next t ∧
        (t.mem.read s.i.toNat).toNat = (s.getV x).toNat / 100 ∧
        (t.mem.read (s.i.toNat + 1)).toNat = (s.getV x).toNat / 10 % 10 ∧
        (t.mem.read (s.i.toNat + 2)).toNat = (s.getV x).toNat % 10 ∧ t.pc = s.pc + 2 ∧
        OnlyBytes (fun a => s.i.toNat ≤ a ∧ a < s.i.toNat + 3) s t) ∧
    (∀ k < 3, ¬ s.Writable (s.i.toNat + k) → (∀ j < k, s.Writable (s.i.toNat + j)) →
      ∃ t, exec (.ldBVx x) s = .next t ∧
        FaultsWith s t (if s.i.toNat + k > 0xFFF then .memoryOutOfRange else .protectedWrite)
          (s.i.toNat + k))

/-- R394: V0 to Vx, or the fault of the lowest failing address with nothing written. -/
def Obligations.RegisterDump : Prop :=
  Decodes 0xF0FF 0xF055 (fun w => .ldMemVx w.x) ∧
  ∀ (x : Reg) (s : State),
    ((∀ k ≤ x.val, s.Writable (s.i.toNat + k)) →
      ∃ t, exec (.ldMemVx x) s = .next t ∧
        (∀ r : Reg, r ≤ x → t.mem.read (s.i.toNat + r.val) = s.getV r) ∧ t.pc = s.pc + 2 ∧
        OnlyBytes (fun a => s.i.toNat ≤ a ∧ a ≤ s.i.toNat + x.val) s t) ∧
    (∀ k ≤ x.val, ¬ s.Writable (s.i.toNat + k) → (∀ j < k, s.Writable (s.i.toNat + j)) →
      ∃ t, exec (.ldMemVx x) s = .next t ∧
        FaultsWith s t (if s.i.toNat + k > 0xFFF then .memoryOutOfRange else .protectedWrite)
          (s.i.toNat + k))

/-- R395: the block into V0 to Vx, or the fault with no register changed. -/
def Obligations.RegisterLoad : Prop :=
  Decodes 0xF0FF 0xF065 (fun w => .ldVxMem w.x) ∧
  ∀ (x : Reg) (s : State),
    (s.i.toNat + x.val ≤ 0xFFF →
      ∃ t, exec (.ldVxMem x) s = .next t ∧
        (∀ r : Reg, r ≤ x → t.getV r = s.mem.read (s.i.toNat + r.val)) ∧ t.pc = s.pc + 2 ∧
        OnlyRegs (fun r => r ≤ x) s t) ∧
    (∀ k ≤ x.val, 0xFFF < s.i.toNat + k → (∀ j < k, s.i.toNat + j ≤ 0xFFF) →
      ∃ t, exec (.ldVxMem x) s = .next t ∧ FaultsWith s t .memoryOutOfRange (s.i.toNat + k))

/-- R394, R395: a dump and a load with the same I and x is a round trip: whatever else changed between, if
the block and I did not, V0 to Vx are restored. -/
def Obligations.DumpThenLoad : Prop :=
  ∀ (x : Reg) (s : State), (∀ k ≤ x.val, s.Writable (s.i.toNat + k)) →
    ∃ t, exec (.ldMemVx x) s = .next t ∧
      ∀ u : State, u.i = s.i →
        (∀ k ≤ x.val, u.mem.read (s.i.toNat + k) = t.mem.read (s.i.toNat + k)) →
        ∃ r, exec (.ldVxMem x) u = .next r ∧ ∀ q : Reg, q ≤ x → r.getV q = s.getV q

/-- R396: I is changed only by LD I, ADD I and LD F. -/
def Obligations.IndexChangedOnlyByThree : Prop :=
  ∀ (i : Instr) (s t : State), exec i s = .next t →
    (∀ nnn, i ≠ .ldINnn nnn) → (∀ x, i ≠ .addIVx x) → (∀ x, i ≠ .ldFVx x) → t.i = s.i

/-- R81, R82: the checks of one byte's read and write, and what the write changes. -/
def Obligations.ByteAccessChecks : Prop :=
  ∀ (s : State) (a : Nat) (b : Byte),
    (0xFFF < a → s.memRead a = .error ⟨.memoryOutOfRange, a⟩) ∧
    (a ≤ 0xFFF → s.memRead a = .ok (s.mem.read a)) ∧
    (0xFFF < a → s.memWrite a b = .error ⟨.memoryOutOfRange, a⟩) ∧
    (a < 0x200 → s.policy.lowWrite = .fault → s.memWrite a b = .error ⟨.protectedWrite, a⟩) ∧
    (a ≤ 0xFFF → (0x200 ≤ a ∨ s.policy.lowWrite = .allow) →
      ∃ t, s.memWrite a b = .ok t ∧ t.mem.read a = b ∧ t.pc = s.pc ∧ OnlyBytes (· = a) s t)

/-- R95: a fetch after a store sees the stored byte, wherever in the word it falls. -/
def Obligations.StoreSeenByFetch : Prop :=
  ∀ (s t : State) (a : Nat) (b : Byte), s.memWrite a b = .ok t → s.pc.toNat % 2 = 0 →
    s.pc.toNat ≤ 0xFFE →
      ∃ w, t.fetch = .ok w ∧
        w.toNat = (if s.pc.toNat = a then b else s.mem.read s.pc.toNat).toNat * 256 +
          (if s.pc.toNat + 1 = a then b else s.mem.read (s.pc.toNat + 1)).toNat

/-- R82, R5: no step writes below 0x200 under LOW_WRITE_POLICY = FAULT, and no step changes a parameter. -/
def Obligations.LowMemoryAndParametersKept : Prop :=
  ∀ s t : State, step s = .next t →
    t.policy = s.policy ∧
    (s.policy.lowWrite = .fault → ∀ a < 0x200, t.mem.read a = s.mem.read a)

/-- R80, R511: the display is reached only by CLS and DRW, the latch only by SKP, SKNP and Fx0A, DT only by
Fx07 and Fx15, and ST only by Fx18: every other instruction neither writes that part nor does anything that
depends on it. -/
def Obligations.DevicesReachedOnlyByTheirForms : Prop :=
  ∀ (i : Instr) (s t : State), exec i s = .next t →
    (i ≠ .cls → (∀ x y n, i ≠ .drwVxVyN x y n) →
      ∀ d : Display, exec i { s with disp := d } = .next { t with disp := d }) ∧
    ((∀ x, i ≠ .skpVx x) → (∀ x, i ≠ .sknpVx x) → (∀ x, i ≠ .ldVxK x) →
      ∀ k : Keys, exec i { s with keys := k } = .next { t with keys := k }) ∧
    ((∀ x, i ≠ .ldVxDt x) → (∀ x, i ≠ .ldDtVx x) →
      ∀ b : Byte, exec i { s with dt := b } = .next { t with dt := b }) ∧
    ((∀ x, i ≠ .ldStVx x) → ∀ b : Byte, exec i { s with st := b } = .next { t with st := b })

/-! ### Encoding (30_encoding.md) -/

/-- Decoding the canonical encoding of any instruction gives it back (R134, R136). -/
def Obligations.DecodeEncodeRoundTrip : Prop :=
  ∀ i : Instr, i.WellFormed → decodeWord (encode i) = .ok i

/-- R130: a word decodes to an instruction exactly when it is the instruction's canonical word but for the
bits the form ignores. -/
def Obligations.WordsOfEachInstruction : Prop :=
  ∀ (w : Word) (i : Instr), decodeWord w = .ok i ↔ w &&& i.examined = encode i

/-- R134: no word is of two rows of the map, every word of a row decodes to that row's form, and every word
that decodes is of its form's row. -/
def Obligations.OpcodeMapExclusive : Prop :=
  opcodeTable.length = 34 ∧
  (∀ w : Word, ∀ p ∈ opcodeTable, ∀ q ∈ opcodeTable, p.admits w = true → q.admits w = true → p = q) ∧
  (∀ w : Word, ∀ p ∈ opcodeTable, p.admits w = true → ∃ i, decodeWord w = .ok i ∧ i.row = p) ∧
  (∀ (w : Word) (i : Instr), decodeWord w = .ok i → i.row ∈ opcodeTable ∧ i.row.admits w = true)

/-- R131, which the spec derives from R124: the unknown words of the four families that multiplex, exactly;
every other word decodes. -/
def Obligations.UnknownWordsExact : Prop :=
  ∀ w : Word,
    (decodeWord w = .error (.unknownOpcode w) ↔
      (w.toNat / 4096 = 0x0 ∧ w.toNat % 256 ∉ [0xE0, 0xEE]) ∨
      (w.toNat / 4096 = 0x8 ∧ w.toNat % 16 ∈ [0x8, 0x9, 0xA, 0xB, 0xC, 0xD, 0xF]) ∨
      (w.toNat / 4096 = 0xE ∧ w.toNat % 256 ∉ [0x9E, 0xA1]) ∨
      (w.toNat / 4096 = 0xF ∧
        w.toNat % 256 ∉ [0x07, 0x0A, 0x15, 0x18, 0x1E, 0x29, 0x33, 0x55, 0x65])) ∧
    (decodeWord w = .error (.unknownOpcode w) ∨ ∃ i, decodeWord w = .ok i)

/-- Words of each family written from R134's patterns. -/
def Obligations.SpecWordsDecode : Prop :=
  decodeWord 0x05E0 = .ok .cls ∧ decodeWord 0x0AEE = .ok .ret ∧ decodeWord 0x2ABC = .ok (.callNnn 0xABC) ∧
  decodeWord 0x5129 = .ok (.seVxVy 1 2) ∧ decodeWord 0x6A2F = .ok (.ldVxKk 10 0x2F) ∧
  decodeWord 0x81A6 = .ok (.shrVx 1) ∧ decodeWord 0x8127 = .ok (.subnVxVy 1 2) ∧
  decodeWord 0xD015 = .ok (.drwVxVyN 0 1 5) ∧ decodeWord 0xE59E = .ok (.skpVx 5) ∧
  decodeWord 0xF20A = .ok (.ldVxK 2) ∧ decodeWord 0xF165 = .ok (.ldVxMem 1) ∧
  decodeWord 0x0123 = .error (.unknownOpcode 0x0123)

/-! ### The step, faults and the run (40_control_flow.md, 60_exceptions.md, 70_reset_and_hazards.md) -/

/-- R506: an unknown word faults with itself as info, or only advances PC. -/
def Obligations.UnknownWordExecution : Prop :=
  ∀ (s : State) (w : Word) (e : Reject), s.fetch = .ok w → decodeWord w = .error e →
    (s.policy.unknown = .fault →
      ∃ t, cpuStep s = .next t ∧ FaultsWith s t .unknownOpcode w.toNat) ∧
    (s.policy.unknown = .nop → ∃ t, cpuStep s = .next t ∧ t.pc = s.pc + 2 ∧ OnlyRegs noReg s t)

/-- R200, R203, R603: a running machine with an even PC in range whose two bytes decode to `i` steps by
executing `i` on the polled state and then applying the tick, with the inputs of the oldest listed event,
or, with none listed, Config's free values (where the inputs come from is the model's choice, log entry 2). -/
def Obligations.StepRunsDecodedInstruction : Prop :=
  ∀ (s u : State) (i : Instr) (w : Word), s.status = .running → s.pc.toNat % 2 = 0 → s.pc.toNat ≤ 0xFFE →
    w.toNat = (s.mem.read s.pc.toNat).toNat * 256 + (s.mem.read (s.pc.toNat + 1)).toNat →
    i.WellFormed → decodeWord w = .ok i →
    (∀ keysIn tick rnd rest, s.events = .iteration keysIn tick rnd :: rest →
      exec i { s with events := rest, keys := keysIn, rnd := rnd } = .next u →
        step s = .next (u.tickIf tick)) ∧
    (s.events = [] →
      exec i { s with draws := s.draws + 1, keys := Config.freeKeys s.draws, rnd := Config.freeRnd s.draws } =
          .next u →
        step s = .next (u.tickIf (Config.freeTick s.draws)))

/-- R201: an odd PC faults at fetch, and only JP, CALL and JP V0 can make an even PC odd while the stack
holds the even addresses CALL pushes. -/
def Obligations.OddPcFaultsAtFetch : Prop :=
  (∀ s : State, s.pc.toNat % 2 = 1 →
    ∃ t, cpuStep s = .next t ∧ FaultsWith s t .invalidAddress s.pc.toNat) ∧
  (∀ (i : Instr) (s t : State), s.StackAligned → s.pc.toNat % 2 = 0 → exec i s = .next t →
    t.pc.toNat % 2 = 1 → (∃ nnn, i = .jpNnn nnn) ∨ (∃ nnn, i = .callNnn nnn) ∨ ∃ nnn, i = .jpV0Nnn nnn)

/-- R202: an even PC above 0xFFE faults at fetch. -/
def Obligations.FetchBeyondMemoryFaults : Prop :=
  ∀ s : State, s.pc.toNat % 2 = 0 → 0xFFE < s.pc.toNat →
    ∃ t, cpuStep s = .next t ∧ FaultsWith s t .memoryOutOfRange s.pc.toNat

/-- Every instruction answers a next state in every state: a fault of the spec is recorded in STATUS, and no
meaning stops the model (R204, R500; the model's choice, log entry 4). -/
def Obligations.ExecAlwaysAnswers : Prop := ∀ (i : Instr) (s : State), ∃ t, exec i s = .next t

/-- R204: an iteration that faults keeps none of the step's writes, records the fault at the step's PC, does
not tick, and is the last. That the latch and the draw of that iteration stand is the model's inference from
R603, whose input poll comes before the step (DEDUCED, log entry 4). -/
def Obligations.FaultsArePrecise : Prop :=
  ∀ (s t : State) (keysIn : Keys) (tick : Bool) (rnd : Byte), s.status = .running →
    s.iterate keysIn tick rnd = .next t → t.status ≠ .running →
      (∃ code info,
        t = { s with keys := keysIn, rnd := rnd, status := .faulted code s.pc info }) ∧
      ∀ u, step t ≠ .next u

/-- R501: which instruction raises which fault with which info; no other instruction faults. -/
def Obligations.OnlyListedFaults : Prop :=
  ∀ (i : Instr) (s t : State), s.status = .running → exec i s = .next t → t.status ≠ .running →
    ∃ code info, t.status = .faulted code s.pc info ∧ MayRaise i code info

/-- R40, R500: a machine that is not RUNNING takes no step. That the model answers its own stop there is the
model's choice (log entry 4). -/
def Obligations.StoppedMachineStays : Prop :=
  ∀ s : State,
    (∀ code fpc info, s.status = .faulted code fpc info → step s = .fault (.halted code fpc info)) ∧
    (s.status = .terminated → step s = .fault .terminated)

/-- R513: quit ends the run and changes nothing but STATUS; after it no iteration runs. That quits are listed
events is the model's choice (log entry 2). -/
def Obligations.QuitTerminates : Prop :=
  ∀ (s : State) (rest : List HostEvent), s.status = .running → s.events = .quit :: rest →
    ∃ t, step s = .next t ∧ t = { s with events := rest, status := .terminated } ∧ ∀ u, step t ≠ .next u

/-- R42, R90: what reset leaves with an empty ROM and the default parameters. The glyph bytes and ENTRY_PC are
the spec's own choices (its decisions D16 and D3; log entry 7). -/
def Obligations.ResetValues : Prop :=
  (∀ r, State.reset.getV r = 0) ∧ State.reset.i = 0 ∧ State.reset.pc = 0x200 ∧ State.reset.sp = 0 ∧
  (∀ k : Fin 16, State.reset.stack[k] = 0) ∧ State.reset.dt = 0 ∧ State.reset.st = 0 ∧
  ((List.range 80).map fun k => State.reset.mem.read (0x050 + k)) =
    [0xF0, 0x90, 0x90, 0x90, 0xF0, 0x20, 0x60, 0x20, 0x20, 0x70, 0xF0, 0x10, 0xF0, 0x80, 0xF0,
     0xF0, 0x10, 0xF0, 0x10, 0xF0, 0x90, 0x90, 0xF0, 0x10, 0x10, 0xF0, 0x80, 0xF0, 0x10, 0xF0] ++
    [0xF0, 0x80, 0xF0, 0x90, 0xF0, 0xF0, 0x10, 0x20, 0x40, 0x40, 0xF0, 0x90, 0xF0, 0x90, 0xF0,
     0xF0, 0x90, 0xF0, 0x10, 0xF0, 0xF0, 0x90, 0xF0, 0x90, 0x90, 0xE0, 0x90, 0xE0, 0x90, 0xE0] ++
    [0xF0, 0x80, 0x80, 0x80, 0xF0, 0xE0, 0x90, 0x90, 0x90, 0xE0, 0xF0, 0x80, 0xF0, 0x80, 0xF0,
     0xF0, 0x80, 0xF0, 0x80, 0x80] ∧
  (∀ a, ¬ (0x050 ≤ a ∧ a ≤ 0x09F) → State.reset.mem.read a = 0) ∧
  (∀ px py, State.reset.disp.pixel px py = false) ∧ (∀ k : Fin 16, State.reset.keys[k] = false) ∧
  State.reset.status = .running

/-- R600, R601, R42: reset with a ROM of at most 3584 bytes and any parameters; a longer or unreadable ROM is
ROMLoadError. -/
def Obligations.RomLoadContract : Prop :=
  ∀ p : Config.ResetParams,
    State.load p none = .error ⟨.romLoadError, none⟩ ∧
    ∀ rom : List Byte,
      (3584 < rom.length → State.load p (some rom) = .error ⟨.romLoadError, some rom.length⟩) ∧
      (rom.length ≤ 3584 →
        ∃ s, State.load p (some rom) = .ok s ∧ s.pc = p.entryPc ∧ s.policy = p.policies ∧
          s.status = .running ∧ s.mem.wf = true ∧
          (∀ k : Fin 80, s.mem.read (0x050 + k.val) = p.font[k]) ∧
          (∀ k (h : k < rom.length), s.mem.read (0x200 + k) = rom[k]) ∧
          (∀ a, ¬ (0x050 ≤ a ∧ a ≤ 0x09F) → ¬ (0x200 ≤ a ∧ a < 0x200 + rom.length) →
            s.mem.read a = 0) ∧
          (∀ r, s.getV r = 0) ∧ s.i = 0 ∧ s.sp = 0 ∧ (∀ k : Fin 16, s.stack[k] = 0) ∧ s.dt = 0 ∧
          s.st = 0 ∧ (∀ px py, s.disp.pixel px py = false) ∧ ∀ k : Fin 16, s.keys[k] = false)

/-- The invariant holds after reset. -/
def Obligations.ResetMeetsInvariant : Prop := State.reset.Inv

/-- Every step keeps the invariant: memory in its canonical form, return addresses even and at most 0x1000
(R201), PC at most 0x10FE (R32), SP 4 bits under WRAP (R34). -/
def Obligations.StepKeepsInvariant : Prop := ∀ s t : State, s.Inv → step s = .next t → t.Inv

/-- R607: from a PARKED state an iteration leaves everything but DT, ST and keys as it was, and PARKED. The
model's `rnd` is the iteration's draw. -/
def Obligations.ParkedStaysParked : Prop :=
  ∀ (s : State) (h : Nat) (keysIn : Keys) (tick : Bool) (rnd : Byte), s.Parked h →
    ∃ t, s.iterate keysIn tick rnd = .next t ∧ t.Parked h ∧
      t = { s with keys := keysIn, rnd := rnd, dt := t.dt, st := t.st }
end

