-- ==== Sys2Proof/Laws/Decode.lean ====
section
/-! SUPPORT. The fields of a word (30_encoding.md R121), of the encoder's words (R122) and of a masked word
(R134), as numbers, so that questions about encodings are questions of linear arithmetic. -/

namespace Sys2Proof

/-! ### The fields of a word -/

theorem Word.op_eq (w : Word) : w.op = w.toNat / 4096 := by
  have := w.isLt
  simp only [Word.op, BitVec.extractLsb'_toNat, Nat.shiftRight_eq_div_pow]
  omega

theorem Word.x_val (w : Word) : w.x.val = w.toNat / 256 % 16 := by
  simp [Word.x, Nat.shiftRight_eq_div_pow]

theorem Word.y_val (w : Word) : w.y.val = w.toNat / 16 % 16 := by
  simp [Word.y, Nat.shiftRight_eq_div_pow]

theorem Word.n_val (w : Word) : w.n.val = w.toNat % 16 := by
  simp [Word.n]

theorem Word.kk_toNat (w : Word) : w.kk.toNat = w.toNat % 256 := by
  simp [Word.kk, BitVec.extractLsb'_toNat]

theorem Word.nnn_toNat (w : Word) : w.nnn.toNat = w.toNat % 4096 := by
  simp [Word.nnn, BitVec.extractLsb'_toNat]

/-- A word is its four nibbles (R121). -/
theorem Word.toNat_eq (w : Word) :
    w.toNat = w.op * 4096 + w.x.val * 256 + w.y.val * 16 + w.n.val := by
  rw [w.op_eq, w.x_val, w.y_val, w.n_val]
  omega

/-! ### The encoder's words -/

theorem append_toNat {a b : Nat} (u : BitVec a) (v : BitVec b) :
    (u ++ v).toNat = u.toNat * 2 ^ b + v.toNat := by
  rw [BitVec.toNat_append, Nat.shiftLeft_eq, Nat.mul_comm, ← Nat.two_pow_add_eq_or_of_lt v.isLt]

theorem formatA_toNat (op : BitVec 4) (nnn : Addr12) :
    (formatA op nnn).toNat = op.toNat * 4096 + nnn.toNat :=
  append_toNat op nnn

theorem formatXK_toNat (op : BitVec 4) (x : Reg) (kk : Byte) :
    (formatXK op x kk).toNat = op.toNat * 4096 + x.val * 256 + kk.toNat := by
  have h : (op ++ nibble x ++ kk).toNat = (op.toNat * 2 ^ 4 + x.val) * 2 ^ 8 + kk.toNat := by
    rw [append_toNat, append_toNat]; rfl
  exact h.trans (by omega)

theorem formatXYN_toNat (op : BitVec 4) (x y : Reg) (n : BitVec 4) :
    (formatXYN op x y n).toNat = op.toNat * 4096 + x.val * 256 + y.val * 16 + n.toNat := by
  have h : (op ++ nibble x ++ nibble y ++ n).toNat =
      ((op.toNat * 2 ^ 4 + x.val) * 2 ^ 4 + y.val) * 2 ^ 4 + n.toNat := by
    rw [append_toNat, append_toNat, append_toNat]; rfl
  exact h.trans (by omega)

/-! ### Masked words -/

/-- A slice of a masked word where the mask keeps it whole. -/
theorem slice_kept (w m : Word) (lo len : Nat) (h : m.extractLsb' lo len = BitVec.allOnes len) :
    (w &&& m).extractLsb' lo len = w.extractLsb' lo len := by
  rw [BitVec.extractLsb'_and, h, BitVec.and_allOnes]

/-- A slice of a masked word where the mask clears it. -/
theorem slice_cleared (w m : Word) (lo len : Nat) (h : m.extractLsb' lo len = 0) :
    (w &&& m).extractLsb' lo len = 0 := by
  rw [BitVec.extractLsb'_and, h]; exact BitVec.and_zero

theorem mask_F000 (w : Word) : (w &&& 0xF000).toNat = w.op * 4096 := by
  rw [Word.toNat_eq, Word.op, Word.x, Word.y, Word.n, slice_kept w _ 12 4 rfl, slice_cleared w _ 8 4 rfl,
    slice_cleared w _ 4 4 rfl, slice_cleared w _ 0 4 rfl]
  change w.op * 4096 + 0 * 256 + 0 * 16 + 0 = _
  omega

theorem mask_F0FF (w : Word) : (w &&& 0xF0FF).toNat = w.op * 4096 + w.kk.toNat := by
  rw [Word.toNat_eq, Word.op, Word.x, Word.y, Word.n, slice_kept w _ 12 4 rfl, slice_cleared w _ 8 4 rfl,
    slice_kept w _ 4 4 rfl, slice_kept w _ 0 4 rfl]
  change w.op * 4096 + 0 * 256 + w.y.val * 16 + w.n.val = _
  rw [w.kk_toNat, w.y_val, w.n_val]
  omega

theorem mask_F00F (w : Word) : (w &&& 0xF00F).toNat = w.op * 4096 + w.n.val := by
  rw [Word.toNat_eq, Word.op, Word.x, Word.y, Word.n, slice_kept w _ 12 4 rfl, slice_cleared w _ 8 4 rfl,
    slice_cleared w _ 4 4 rfl, slice_kept w _ 0 4 rfl]
  change w.op * 4096 + 0 * 256 + 0 * 16 + w.n.val = _
  omega

theorem mask_FFF0 (w : Word) : (w &&& 0xFFF0).toNat = w.op * 4096 + w.x.val * 256 + w.y.val * 16 := by
  rw [Word.toNat_eq, Word.op, Word.x, Word.y, Word.n, slice_kept w _ 12 4 rfl, slice_kept w _ 8 4 rfl,
    slice_kept w _ 4 4 rfl, slice_cleared w _ 0 4 rfl]
  change w.op * 4096 + w.x.val * 256 + w.y.val * 16 + 0 = _
  omega

theorem mask_FF0F (w : Word) : (w &&& 0xFF0F).toNat = w.op * 4096 + w.x.val * 256 + w.n.val := by
  rw [Word.toNat_eq, Word.op, Word.x, Word.y, Word.n, slice_kept w _ 12 4 rfl, slice_kept w _ 8 4 rfl,
    slice_cleared w _ 4 4 rfl, slice_kept w _ 0 4 rfl]
  change w.op * 4096 + w.x.val * 256 + 0 * 16 + w.n.val = _
  omega

end Sys2Proof
end

