-- ==== Sys2Proof/Laws/State.lean ====
section
/-! SUPPORT. One lemma per field of `State` per named update, so that no proof unfolds a record update. -/

namespace Sys2Proof.Machine

/-! ### `State.setV` -/

@[simp] theorem State.setV_v (s : State) (r : Reg) (b : Byte) : (s.setV r b).v = s.v.set r b := rfl

@[simp] theorem State.setV_i (s : State) (r : Reg) (b : Byte) : (s.setV r b).i = s.i := rfl

@[simp] theorem State.setV_pc (s : State) (r : Reg) (b : Byte) : (s.setV r b).pc = s.pc := rfl

@[simp] theorem State.setV_sp (s : State) (r : Reg) (b : Byte) : (s.setV r b).sp = s.sp := rfl

@[simp] theorem State.setV_stack (s : State) (r : Reg) (b : Byte) : (s.setV r b).stack = s.stack := rfl

@[simp] theorem State.setV_dt (s : State) (r : Reg) (b : Byte) : (s.setV r b).dt = s.dt := rfl

@[simp] theorem State.setV_st (s : State) (r : Reg) (b : Byte) : (s.setV r b).st = s.st := rfl

@[simp] theorem State.setV_mem (s : State) (r : Reg) (b : Byte) : (s.setV r b).mem = s.mem := rfl

@[simp] theorem State.setV_disp (s : State) (r : Reg) (b : Byte) : (s.setV r b).disp = s.disp := rfl

@[simp] theorem State.setV_keys (s : State) (r : Reg) (b : Byte) : (s.setV r b).keys = s.keys := rfl

@[simp] theorem State.setV_status (s : State) (r : Reg) (b : Byte) : (s.setV r b).status = s.status := rfl

@[simp] theorem State.setV_policy (s : State) (r : Reg) (b : Byte) : (s.setV r b).policy = s.policy := rfl

@[simp] theorem State.setV_rnd (s : State) (r : Reg) (b : Byte) : (s.setV r b).rnd = s.rnd := rfl

@[simp] theorem State.setV_events (s : State) (r : Reg) (b : Byte) : (s.setV r b).events = s.events := rfl

@[simp] theorem State.setV_draws (s : State) (r : Reg) (b : Byte) : (s.setV r b).draws = s.draws := rfl

/-! ### `State.advance` -/

@[simp] theorem State.advance_v (s : State) : (s.advance).v = s.v := rfl

@[simp] theorem State.advance_i (s : State) : (s.advance).i = s.i := rfl

@[simp] theorem State.advance_pc (s : State) : (s.advance).pc = s.pc + 2 := rfl

@[simp] theorem State.advance_sp (s : State) : (s.advance).sp = s.sp := rfl

@[simp] theorem State.advance_stack (s : State) : (s.advance).stack = s.stack := rfl

@[simp] theorem State.advance_dt (s : State) : (s.advance).dt = s.dt := rfl

@[simp] theorem State.advance_st (s : State) : (s.advance).st = s.st := rfl

@[simp] theorem State.advance_mem (s : State) : (s.advance).mem = s.mem := rfl

@[simp] theorem State.advance_disp (s : State) : (s.advance).disp = s.disp := rfl

@[simp] theorem State.advance_keys (s : State) : (s.advance).keys = s.keys := rfl

@[simp] theorem State.advance_status (s : State) : (s.advance).status = s.status := rfl

@[simp] theorem State.advance_policy (s : State) : (s.advance).policy = s.policy := rfl

@[simp] theorem State.advance_rnd (s : State) : (s.advance).rnd = s.rnd := rfl

@[simp] theorem State.advance_events (s : State) : (s.advance).events = s.events := rfl

@[simp] theorem State.advance_draws (s : State) : (s.advance).draws = s.draws := rfl

@[simp] theorem State.advance_getV (s : State) (q : Reg) : (s.advance).getV q = s.getV q := rfl

/-! ### `State.jump` -/

@[simp] theorem State.jump_v (s : State) (a : Word) : (s.jump a).v = s.v := rfl

@[simp] theorem State.jump_i (s : State) (a : Word) : (s.jump a).i = s.i := rfl

@[simp] theorem State.jump_pc (s : State) (a : Word) : (s.jump a).pc = a := rfl

@[simp] theorem State.jump_sp (s : State) (a : Word) : (s.jump a).sp = s.sp := rfl

@[simp] theorem State.jump_stack (s : State) (a : Word) : (s.jump a).stack = s.stack := rfl

@[simp] theorem State.jump_dt (s : State) (a : Word) : (s.jump a).dt = s.dt := rfl

@[simp] theorem State.jump_st (s : State) (a : Word) : (s.jump a).st = s.st := rfl

@[simp] theorem State.jump_mem (s : State) (a : Word) : (s.jump a).mem = s.mem := rfl

@[simp] theorem State.jump_disp (s : State) (a : Word) : (s.jump a).disp = s.disp := rfl

@[simp] theorem State.jump_keys (s : State) (a : Word) : (s.jump a).keys = s.keys := rfl

@[simp] theorem State.jump_status (s : State) (a : Word) : (s.jump a).status = s.status := rfl

@[simp] theorem State.jump_policy (s : State) (a : Word) : (s.jump a).policy = s.policy := rfl

@[simp] theorem State.jump_rnd (s : State) (a : Word) : (s.jump a).rnd = s.rnd := rfl

@[simp] theorem State.jump_events (s : State) (a : Word) : (s.jump a).events = s.events := rfl

@[simp] theorem State.jump_draws (s : State) (a : Word) : (s.jump a).draws = s.draws := rfl

@[simp] theorem State.jump_getV (s : State) (a : Word) (q : Reg) : (s.jump a).getV q = s.getV q := rfl

/-! ### `State.skipIf` -/

@[simp] theorem State.skipIf_v (s : State) (c : Bool) : (s.skipIf c).v = s.v := rfl

@[simp] theorem State.skipIf_i (s : State) (c : Bool) : (s.skipIf c).i = s.i := rfl

@[simp] theorem State.skipIf_pc (s : State) (c : Bool) : (s.skipIf c).pc = if c then s.pc + 2 else s.pc := rfl

@[simp] theorem State.skipIf_sp (s : State) (c : Bool) : (s.skipIf c).sp = s.sp := rfl

@[simp] theorem State.skipIf_stack (s : State) (c : Bool) : (s.skipIf c).stack = s.stack := rfl

@[simp] theorem State.skipIf_dt (s : State) (c : Bool) : (s.skipIf c).dt = s.dt := rfl

@[simp] theorem State.skipIf_st (s : State) (c : Bool) : (s.skipIf c).st = s.st := rfl

@[simp] theorem State.skipIf_mem (s : State) (c : Bool) : (s.skipIf c).mem = s.mem := rfl

@[simp] theorem State.skipIf_disp (s : State) (c : Bool) : (s.skipIf c).disp = s.disp := rfl

@[simp] theorem State.skipIf_keys (s : State) (c : Bool) : (s.skipIf c).keys = s.keys := rfl

@[simp] theorem State.skipIf_status (s : State) (c : Bool) : (s.skipIf c).status = s.status := rfl

@[simp] theorem State.skipIf_policy (s : State) (c : Bool) : (s.skipIf c).policy = s.policy := rfl

@[simp] theorem State.skipIf_rnd (s : State) (c : Bool) : (s.skipIf c).rnd = s.rnd := rfl

@[simp] theorem State.skipIf_events (s : State) (c : Bool) : (s.skipIf c).events = s.events := rfl

@[simp] theorem State.skipIf_draws (s : State) (c : Bool) : (s.skipIf c).draws = s.draws := rfl

@[simp] theorem State.skipIf_getV (s : State) (c : Bool) (q : Reg) : (s.skipIf c).getV q = s.getV q := rfl

/-! ### `State.rewind` -/

@[simp] theorem State.rewind_v (s : State) : (s.rewind).v = s.v := rfl

@[simp] theorem State.rewind_i (s : State) : (s.rewind).i = s.i := rfl

@[simp] theorem State.rewind_pc (s : State) : (s.rewind).pc = s.pc - 2 := rfl

@[simp] theorem State.rewind_sp (s : State) : (s.rewind).sp = s.sp := rfl

@[simp] theorem State.rewind_stack (s : State) : (s.rewind).stack = s.stack := rfl

@[simp] theorem State.rewind_dt (s : State) : (s.rewind).dt = s.dt := rfl

@[simp] theorem State.rewind_st (s : State) : (s.rewind).st = s.st := rfl

@[simp] theorem State.rewind_mem (s : State) : (s.rewind).mem = s.mem := rfl

@[simp] theorem State.rewind_disp (s : State) : (s.rewind).disp = s.disp := rfl

@[simp] theorem State.rewind_keys (s : State) : (s.rewind).keys = s.keys := rfl

@[simp] theorem State.rewind_status (s : State) : (s.rewind).status = s.status := rfl

@[simp] theorem State.rewind_policy (s : State) : (s.rewind).policy = s.policy := rfl

@[simp] theorem State.rewind_rnd (s : State) : (s.rewind).rnd = s.rnd := rfl

@[simp] theorem State.rewind_events (s : State) : (s.rewind).events = s.events := rfl

@[simp] theorem State.rewind_draws (s : State) : (s.rewind).draws = s.draws := rfl

@[simp] theorem State.rewind_getV (s : State) (q : Reg) : (s.rewind).getV q = s.getV q := rfl

/-! ### `State.raise` -/

@[simp] theorem State.raise_v (s : State) (t : Trap) : (s.raise t).v = s.v := rfl

@[simp] theorem State.raise_i (s : State) (t : Trap) : (s.raise t).i = s.i := rfl

@[simp] theorem State.raise_pc (s : State) (t : Trap) : (s.raise t).pc = s.pc := rfl

@[simp] theorem State.raise_sp (s : State) (t : Trap) : (s.raise t).sp = s.sp := rfl

@[simp] theorem State.raise_stack (s : State) (t : Trap) : (s.raise t).stack = s.stack := rfl

@[simp] theorem State.raise_dt (s : State) (t : Trap) : (s.raise t).dt = s.dt := rfl

@[simp] theorem State.raise_st (s : State) (t : Trap) : (s.raise t).st = s.st := rfl

@[simp] theorem State.raise_mem (s : State) (t : Trap) : (s.raise t).mem = s.mem := rfl

@[simp] theorem State.raise_disp (s : State) (t : Trap) : (s.raise t).disp = s.disp := rfl

@[simp] theorem State.raise_keys (s : State) (t : Trap) : (s.raise t).keys = s.keys := rfl

@[simp] theorem State.raise_status (s : State) (t : Trap) : (s.raise t).status = .faulted t.code s.pc t.info := rfl

@[simp] theorem State.raise_policy (s : State) (t : Trap) : (s.raise t).policy = s.policy := rfl

@[simp] theorem State.raise_rnd (s : State) (t : Trap) : (s.raise t).rnd = s.rnd := rfl

@[simp] theorem State.raise_events (s : State) (t : Trap) : (s.raise t).events = s.events := rfl

@[simp] theorem State.raise_draws (s : State) (t : Trap) : (s.raise t).draws = s.draws := rfl

@[simp] theorem State.raise_getV (s : State) (t : Trap) (q : Reg) : (s.raise t).getV q = s.getV q := rfl

/-! ### `State.poll` -/

@[simp] theorem State.poll_v (s : State) (k : Keys) (d : Byte) : (s.poll k d).v = s.v := rfl

@[simp] theorem State.poll_i (s : State) (k : Keys) (d : Byte) : (s.poll k d).i = s.i := rfl

@[simp] theorem State.poll_pc (s : State) (k : Keys) (d : Byte) : (s.poll k d).pc = s.pc := rfl

@[simp] theorem State.poll_sp (s : State) (k : Keys) (d : Byte) : (s.poll k d).sp = s.sp := rfl

@[simp] theorem State.poll_stack (s : State) (k : Keys) (d : Byte) : (s.poll k d).stack = s.stack := rfl

@[simp] theorem State.poll_dt (s : State) (k : Keys) (d : Byte) : (s.poll k d).dt = s.dt := rfl

@[simp] theorem State.poll_st (s : State) (k : Keys) (d : Byte) : (s.poll k d).st = s.st := rfl

@[simp] theorem State.poll_mem (s : State) (k : Keys) (d : Byte) : (s.poll k d).mem = s.mem := rfl

@[simp] theorem State.poll_disp (s : State) (k : Keys) (d : Byte) : (s.poll k d).disp = s.disp := rfl

@[simp] theorem State.poll_keys (s : State) (k : Keys) (d : Byte) : (s.poll k d).keys = k := rfl

@[simp] theorem State.poll_status (s : State) (k : Keys) (d : Byte) : (s.poll k d).status = s.status := rfl

@[simp] theorem State.poll_policy (s : State) (k : Keys) (d : Byte) : (s.poll k d).policy = s.policy := rfl

@[simp] theorem State.poll_rnd (s : State) (k : Keys) (d : Byte) : (s.poll k d).rnd = d := rfl

@[simp] theorem State.poll_events (s : State) (k : Keys) (d : Byte) : (s.poll k d).events = s.events := rfl

@[simp] theorem State.poll_draws (s : State) (k : Keys) (d : Byte) : (s.poll k d).draws = s.draws := rfl

@[simp] theorem State.poll_getV (s : State) (k : Keys) (d : Byte) (q : Reg) : (s.poll k d).getV q = s.getV q := rfl

/-! ### `State.tickIf` -/

@[simp] theorem State.tickIf_v (s : State) (c : Bool) : (s.tickIf c).v = s.v := rfl

@[simp] theorem State.tickIf_i (s : State) (c : Bool) : (s.tickIf c).i = s.i := rfl

@[simp] theorem State.tickIf_pc (s : State) (c : Bool) : (s.tickIf c).pc = s.pc := rfl

@[simp] theorem State.tickIf_sp (s : State) (c : Bool) : (s.tickIf c).sp = s.sp := rfl

@[simp] theorem State.tickIf_stack (s : State) (c : Bool) : (s.tickIf c).stack = s.stack := rfl

@[simp] theorem State.tickIf_dt (s : State) (c : Bool) : (s.tickIf c).dt = if c && s.status == .running then tickDown s.dt else s.dt := rfl

@[simp] theorem State.tickIf_st (s : State) (c : Bool) : (s.tickIf c).st = if c && s.status == .running then tickDown s.st else s.st := rfl

@[simp] theorem State.tickIf_mem (s : State) (c : Bool) : (s.tickIf c).mem = s.mem := rfl

@[simp] theorem State.tickIf_disp (s : State) (c : Bool) : (s.tickIf c).disp = s.disp := rfl

@[simp] theorem State.tickIf_keys (s : State) (c : Bool) : (s.tickIf c).keys = s.keys := rfl

@[simp] theorem State.tickIf_status (s : State) (c : Bool) : (s.tickIf c).status = s.status := rfl

@[simp] theorem State.tickIf_policy (s : State) (c : Bool) : (s.tickIf c).policy = s.policy := rfl

@[simp] theorem State.tickIf_rnd (s : State) (c : Bool) : (s.tickIf c).rnd = s.rnd := rfl

@[simp] theorem State.tickIf_events (s : State) (c : Bool) : (s.tickIf c).events = s.events := rfl

@[simp] theorem State.tickIf_draws (s : State) (c : Bool) : (s.tickIf c).draws = s.draws := rfl

@[simp] theorem State.tickIf_getV (s : State) (c : Bool) (q : Reg) : (s.tickIf c).getV q = s.getV q := rfl

/-! ### `State.quit` -/

@[simp] theorem State.quit_v (s : State) : (s.quit).v = s.v := rfl

@[simp] theorem State.quit_i (s : State) : (s.quit).i = s.i := rfl

@[simp] theorem State.quit_pc (s : State) : (s.quit).pc = s.pc := rfl

@[simp] theorem State.quit_sp (s : State) : (s.quit).sp = s.sp := rfl

@[simp] theorem State.quit_stack (s : State) : (s.quit).stack = s.stack := rfl

@[simp] theorem State.quit_dt (s : State) : (s.quit).dt = s.dt := rfl

@[simp] theorem State.quit_st (s : State) : (s.quit).st = s.st := rfl

@[simp] theorem State.quit_mem (s : State) : (s.quit).mem = s.mem := rfl

@[simp] theorem State.quit_disp (s : State) : (s.quit).disp = s.disp := rfl

@[simp] theorem State.quit_keys (s : State) : (s.quit).keys = s.keys := rfl

@[simp] theorem State.quit_status (s : State) : (s.quit).status = .terminated := rfl

@[simp] theorem State.quit_policy (s : State) : (s.quit).policy = s.policy := rfl

@[simp] theorem State.quit_rnd (s : State) : (s.quit).rnd = s.rnd := rfl

@[simp] theorem State.quit_events (s : State) : (s.quit).events = s.events := rfl

@[simp] theorem State.quit_draws (s : State) : (s.quit).draws = s.draws := rfl

@[simp] theorem State.quit_getV (s : State) (q : Reg) : (s.quit).getV q = s.getV q := rfl

/-! ### Reading a register after writing one -/

@[simp] theorem State.getV_setV_same (s : State) (r : Reg) (b : Byte) : (s.setV r b).getV r = b := by
  simp [State.getV, State.setV]

@[simp] theorem State.getV_setV_ne (s : State) {r q : Reg} (b : Byte) (h : q ≠ r) :
    (s.setV r b).getV q = s.getV q := by
  have : r.val ≠ q.val := fun e => h (Fin.ext e.symm)
  simp [State.getV, State.setV, Vector.getElem_set_ne, this]

theorem State.getV_setV (s : State) (r q : Reg) (b : Byte) :
    (s.setV r b).getV q = if q = r then b else s.getV q := by
  split
  · next h => subst h; simp
  · next h => simp [h]

@[simp] theorem State.base_advance (s : State) : s.advance.base = s.base := rfl

end Sys2Proof.Machine
end

