-- ==== Sys2Proof/Laws/Memory.lean ====
section
/-! SUPPORT. Memory: reading after writing, the canonical form every memory operation keeps, and all that the
checked accesses of 20_memory.md R81 and R82 can do. -/

namespace Sys2Proof.Machine

/-- No entry of `m` is at `a`. -/
def Memory.Absent (m : Memory) (a : Nat) : Prop := ∀ p ∈ m, p.1 ≠ a

theorem Memory.read_absent (m : Memory) (a : Nat) (h : m.Absent a) : m.read a = Memory.initial a := by
  induction m with
  | nil => rfl
  | cons p m ih =>
    have hp : p.1 ≠ a := h p (by simp)
    simpa [Memory.read, hp] using ih fun q hq => h q (by simp [hq])

theorem Memory.erase_absent (m : Memory) (a : Nat) : (m.erase a).Absent a := by
  induction m with
  | nil => intro p hp; simp [Memory.erase] at hp
  | cons p m ih =>
    unfold Memory.erase
    split
    · exact ih
    · intro q hq
      rcases List.mem_cons.mp hq with rfl | hq
      · assumption
      · exact ih q hq

theorem Memory.read_erase_ne (m : Memory) {a c : Nat} (h : c ≠ a) : (m.erase a).read c = m.read c := by
  induction m with
  | nil => rfl
  | cons p m ih =>
    unfold Memory.erase
    split
    · next hk => simp [Memory.read, hk, h.symm, ih]
    · simp [Memory.read, ih]

theorem Memory.read_insert (m : Memory) (a : Nat) (b : Byte) (c : Nat) (h : m.Absent a) :
    (m.insert a b).read c = if c = a then b else m.read c := by
  induction m with
  | nil =>
    by_cases hc : c = a
    · simp [Memory.insert, Memory.read, hc]
    · simp [Memory.insert, Memory.read, hc, Ne.symm hc]
  | cons p m ih =>
    have hp : p.1 ≠ a := h p (by simp)
    have ih := ih fun q hq => h q (by simp [hq])
    unfold Memory.insert
    split
    · by_cases hc : c = a
      · simp [Memory.read, hc]
      · simp [Memory.read, hc, Ne.symm hc]
    · by_cases hc : c = a
      · subst hc; simp [Memory.read, hp, ih]
      · simp [Memory.read, hc, ih]

/-- A byte reads as last written, and every other byte as before. -/
@[simp] theorem Memory.read_write (m : Memory) (a : Nat) (b : Byte) (c : Nat) :
    (m.write a b).read c = if c = a then b else m.read c := by
  unfold Memory.write
  by_cases hc : c = a
  · subst hc
    split
    · next hb => simp [Memory.read_absent _ _ (Memory.erase_absent m c), hb]
    · simp [Memory.read_insert _ _ _ _ (Memory.erase_absent m c)]
  · split
    · simp [Memory.read_erase_ne m hc]
    · simp [Memory.read_insert _ _ _ _ (Memory.erase_absent m a), hc, Memory.read_erase_ne m hc]

theorem Memory.wfFrom_mono {lo lo' : Nat} {m : Memory} (hl : lo' ≤ lo) (h : Memory.wfFrom lo m = true) :
    Memory.wfFrom lo' m = true := by
  cases m with
  | nil => rfl
  | cons p m =>
    simp only [Memory.wfFrom, Bool.and_eq_true, decide_eq_true_eq] at h ⊢
    exact ⟨⟨⟨by omega, h.1.1.2⟩, h.1.2⟩, h.2⟩

theorem Memory.wfFrom_erase {lo : Nat} {m : Memory} (a : Nat) (h : Memory.wfFrom lo m = true) :
    Memory.wfFrom lo (m.erase a) = true := by
  induction m generalizing lo with
  | nil => rfl
  | cons p m ih =>
    simp only [Memory.wfFrom, Bool.and_eq_true, decide_eq_true_eq] at h
    unfold Memory.erase
    split
    · exact ih (Memory.wfFrom_mono (by omega) h.2)
    · simp only [Memory.wfFrom, Bool.and_eq_true, decide_eq_true_eq]
      exact ⟨h.1, ih h.2⟩

theorem Memory.wfFrom_insert {lo : Nat} {m : Memory} {a : Nat} {b : Byte} (h : Memory.wfFrom lo m = true)
    (hl : lo ≤ a) (ha : a < memSize) (hb : b ≠ Memory.initial a) (habs : m.Absent a) :
    Memory.wfFrom lo (m.insert a b) = true := by
  induction m generalizing lo with
  | nil => simp [Memory.insert, Memory.wfFrom, hl, ha, hb]
  | cons p m ih =>
    have hp : p.1 ≠ a := habs p (by simp)
    simp only [Memory.wfFrom, Bool.and_eq_true, decide_eq_true_eq] at h
    unfold Memory.insert
    split
    · next hk =>
      simp only [Memory.wfFrom, Bool.and_eq_true, decide_eq_true_eq]
      exact ⟨⟨⟨hl, ha⟩, hb⟩, ⟨⟨by omega, h.1.1.2⟩, h.1.2⟩, h.2⟩
    · next hk =>
      simp only [Memory.wfFrom, Bool.and_eq_true, decide_eq_true_eq]
      exact ⟨h.1, ih h.2 (by omega) fun q hq => habs q (by simp [hq])⟩

/-- A write inside the address space keeps the canonical form. -/
theorem Memory.wf_write {m : Memory} {a : Nat} (b : Byte) (h : m.wf = true) (ha : a < memSize) :
    (m.write a b).wf = true := by
  unfold Memory.write
  split
  · exact Memory.wfFrom_erase a h
  · next hb =>
    exact Memory.wfFrom_insert (Memory.wfFrom_erase a h) (by omega) ha hb (Memory.erase_absent m a)

/-- Copying bytes inside the address space keeps the canonical form. -/
theorem Memory.wf_place {m : Memory} {a : Nat} {bs : List Byte} (h : m.wf = true)
    (ha : a + bs.length ≤ memSize) : (m.place a bs).wf = true := by
  induction bs generalizing m a with
  | nil => exact h
  | cons b bs ih =>
    simp only [List.length_cons] at ha
    exact ih (Memory.wf_write b h (by omega)) (by omega)

/-- Copied bytes read back in order, and every other byte reads as before. -/
theorem Memory.read_place (m : Memory) (a : Nat) (bs : List Byte) (c : Nat) :
    (m.place a bs).read c = if a ≤ c ∧ c < a + bs.length then bs.getD (c - a) 0 else m.read c := by
  induction bs generalizing m a with
  | nil => simp only [Memory.place, List.length_nil]; split <;> [omega; rfl]
  | cons b bs ih =>
    simp only [Memory.place, ih, Memory.read_write, List.length_cons]
    by_cases h1 : c = a
    · subst h1; simp
    · by_cases h2 : a ≤ c ∧ c < a + (bs.length + 1)
      · have e : c - a = (c - (a + 1)) + 1 := by omega
        rw [if_pos (by omega), if_pos h2, e, List.getD_cons_succ]
      · rw [if_neg (by omega), if_neg h1, if_neg h2]

/-- Reset memory is in the canonical form. -/
theorem State.reset_mem_wf : State.reset.mem.wf = true := rfl

/-! ### The checked accesses -/

/-- All that MemRead can do (R81). -/
theorem State.memRead_cases (s : State) (a : Nat) :
    (a ≤ 0xFFF ∧ s.memRead a = .ok (s.mem.read a)) ∨
      (a > 0xFFF ∧ s.memRead a = .error ⟨.memoryOutOfRange, a⟩) := by
  unfold State.memRead
  by_cases h : a > 0xFFF
  · exact .inr ⟨h, if_pos h⟩
  · exact .inl ⟨by omega, if_neg h⟩

/-- All that MemWrite can do (R82). -/
theorem State.memWrite_cases (s : State) (a : Nat) (b : Byte) :
    (s.Writable a ∧ s.memWrite a b = .ok { s with mem := s.mem.write a b }) ∨
      (a > 0xFFF ∧ s.memWrite a b = .error ⟨.memoryOutOfRange, a⟩) ∨
      (a < 0x200 ∧ s.policy.lowWrite = .fault ∧ s.memWrite a b = .error ⟨.protectedWrite, a⟩) := by
  unfold State.memWrite State.Writable programBase
  by_cases h : a > 0xFFF
  · exact .inr (.inl ⟨h, if_pos h⟩)
  · by_cases h2 : a < 0x200 ∧ s.policy.lowWrite = .fault
    · exact .inr (.inr ⟨h2.1, h2.2, by rw [if_neg h, if_pos h2]⟩)
    · refine .inl ⟨⟨by omega, fun hp => ?_⟩, by rw [if_neg h, if_neg h2]⟩
      by_contra hc
      exact h2 ⟨by omega, hp⟩

/-- A block read inside the address space gives the bytes in order. -/
theorem State.memReads_ok (s : State) (a n : Nat) (h : ∀ k, k < n → a + k ≤ 0xFFF) :
    s.memReads a n = .ok ((List.range n).map fun k => s.mem.read (a + k)) := by
  induction n generalizing a with
  | zero => rfl
  | succ n ih =>
    have h0 : a ≤ 0xFFF := by simpa using h 0 (by omega)
    have e : s.memRead a = .ok (s.mem.read a) := if_neg (by omega)
    have hr := ih (a + 1) fun k hk => by have := h (k + 1) (by omega); omega
    simp [State.memReads, e, hr, List.range_succ_eq_map, Nat.add_comm, Nat.add_left_comm]

/-- A block read that leaves the address space faults at the lowest failing address. -/
theorem State.memReads_error (s : State) (a n : Nat) (k : Nat) (hk : k < n) (hf : a + k > 0xFFF)
    (hl : ∀ j, j < k → a + j ≤ 0xFFF) : s.memReads a n = .error ⟨.memoryOutOfRange, a + k⟩ := by
  induction n generalizing a k with
  | zero => omega
  | succ n ih =>
    cases k with
    | zero =>
      have e : s.memRead a = .error ⟨.memoryOutOfRange, a⟩ := if_pos (by simpa using hf)
      simp [State.memReads, e]
    | succ k =>
      have h0 : a ≤ 0xFFF := by simpa using hl 0 (by omega)
      have e : s.memRead a = .ok (s.mem.read a) := if_neg (by omega)
      have hr := ih (a + 1) k (by omega) (by omega) fun j hj => by have := hl (j + 1) (by omega); omega
      simp [State.memReads, e, hr, Nat.add_comm, Nat.add_left_comm]

/-- A block write that passes the checks at every address copies the bytes. -/
theorem State.memWrites_ok (s : State) (a : Nat) (bs : List Byte)
    (h : ∀ k, k < bs.length → s.Writable (a + k)) :
    s.memWrites a bs = .ok { s with mem := s.mem.place a bs } := by
  induction bs generalizing s a with
  | nil => rfl
  | cons b bs ih =>
    have h0 : s.Writable a := h 0 (by simp)
    have e : s.memWrite a b = .ok { s with mem := s.mem.write a b } := by
      rcases s.memWrite_cases a b with ⟨_, e⟩ | ⟨hc, _⟩ | ⟨hc, hp, _⟩
      · exact e
      · exact absurd h0.1 (by omega)
      · exact absurd (h0.2 hp) (by omega)
    have hr := ih { s with mem := s.mem.write a b } (a + 1) fun k hk => by
      have := h (k + 1) (by simpa using hk)
      simpa [State.Writable, Nat.add_comm, Nat.add_left_comm] using this
    simp [State.memWrites, e, hr, Memory.place]

/-- A block write faults at its lowest failing address, with the range check before the low-memory check. -/
theorem State.memWrites_error (s : State) (a : Nat) (bs : List Byte) (k : Nat) (hk : k < bs.length)
    (hf : ¬ s.Writable (a + k)) (hl : ∀ j, j < k → s.Writable (a + j)) :
    s.memWrites a bs =
      .error ⟨if a + k > 0xFFF then .memoryOutOfRange else .protectedWrite, a + k⟩ := by
  induction bs generalizing s a k with
  | nil => simp at hk
  | cons b bs ih =>
    cases k with
    | zero =>
      rcases s.memWrite_cases a b with ⟨hw, _⟩ | ⟨hc, e⟩ | ⟨hc, _, e⟩
      · exact absurd hw (by simpa using hf)
      · simp [State.memWrites, e, hc]
      · have : ¬ a > 0xFFF := by omega
        simp [State.memWrites, e, this]
    | succ k =>
      have h0 : s.Writable a := hl 0 (by omega)
      have e : s.memWrite a b = .ok { s with mem := s.mem.write a b } := by
        rcases s.memWrite_cases a b with ⟨_, e⟩ | ⟨hc, _⟩ | ⟨hc, hp, _⟩
        · exact e
        · exact absurd h0.1 (by omega)
        · exact absurd (h0.2 hp) (by omega)
      have a1 : a + 1 + k = a + (k + 1) := by omega
      have hr := ih { s with mem := s.mem.write a b } (a + 1) k (by simpa using hk)
        (by rw [a1]; exact hf)
        (fun j hj => by
          have := hl (j + 1) (by omega)
          have a2 : a + 1 + j = a + (j + 1) := by omega
          rw [a2]; exact this)
      simp [State.memWrites, e, hr, a1]

end Sys2Proof.Machine
end

