-- ==== Sys2Proof/Laws/Ops.lean ====
section
/-! SUPPORT. All that each shared operation can do, said once: ending a step, the return stack, fetch, the key
operands, the flag and result order, the sprite blit, the block load and the timers. -/

namespace Sys2Proof.Machine

/-! ### Ending a step -/

@[simp] theorem State.finish_ok (s t : State) : s.finish (.ok t) = .next t := rfl

@[simp] theorem State.finish_error (s : State) (t : Trap) : s.finish (.error t) = .next (s.raise t) := rfl

/-- A step that ends so always answers a next state. -/
theorem State.finish_next (s : State) (r : Except Trap State) : ∃ t, s.finish r = .next t := by
  cases r with
  | ok t => exact ⟨t, rfl⟩
  | error t => exact ⟨s.raise t, rfl⟩

/-! ### The return stack -/

/-- All that CALL's push can do (R207). -/
theorem State.push_cases (s : State) (a : Word) :
    (s.policy.stack = .fault ∧ s.sp.val = 16 ∧ s.push a = .error ⟨.stackOverflow, 16⟩) ∨
      (s.policy.stack = .fault ∧ s.sp.val < 16 ∧
        s.push a =
          .ok { s with stack := s.stack.set (slot s.sp.val) a, sp := depth (s.sp.val + 1) }) ∨
      (s.policy.stack = .wrap ∧
        s.push a =
          .ok { s with stack := s.stack.set (slot s.sp.val) a, sp := depth ((s.sp.val + 1) % 16) }) := by
  unfold State.push
  cases hp : s.policy.stack with
  | fault =>
    by_cases h : s.sp.val = 16
    · exact .inl ⟨rfl, h, if_pos h⟩
    · exact .inr (.inl ⟨rfl, by omega, if_neg h⟩)
  | wrap => exact .inr (.inr ⟨rfl, rfl⟩)

/-- All that RET's pop can do (R205). -/
theorem State.popPc_cases (s : State) :
    (s.policy.stack = .fault ∧ s.sp.val = 0 ∧ s.popPc = .error ⟨.stackUnderflow, 0⟩) ∨
      (s.policy.stack = .fault ∧ 0 < s.sp.val ∧
        s.popPc = .ok { s with sp := depth (s.sp.val - 1), pc := s.stack[slot (s.sp.val - 1)] }) ∨
      (s.policy.stack = .wrap ∧
        s.popPc =
          .ok { s with sp := depth ((s.sp.val + 15) % 16), pc := s.stack[slot ((s.sp.val + 15) % 16)] }) := by
  unfold State.popPc
  cases hp : s.policy.stack with
  | fault =>
    by_cases h : s.sp.val = 0
    · exact .inl ⟨rfl, h, if_pos h⟩
    · exact .inr (.inl ⟨rfl, by omega, if_neg h⟩)
  | wrap => exact .inr (.inr ⟨rfl, rfl⟩)

@[simp] theorem slot_val (n : Nat) : (slot n).val = n % 16 := rfl

@[simp] theorem depth_val (n : Nat) : (depth n).val = n % 17 := rfl

/-- A slot after a push. -/
theorem stack_set (v : Vector Word 16) (j k : Fin 16) (a : Word) :
    (v.set j a)[k] = if k = j then a else v[k] := by
  by_cases h : k = j
  · subst h; simp
  · have : j.val ≠ k.val := fun e => h (Fin.ext e.symm)
    simp [Vector.getElem_set_ne, this, h]

/-! ### Fetch -/

/-- All that the fetch can do (R200 to R202). -/
theorem State.fetch_cases (s : State) :
    (s.pc.toNat % 2 = 1 ∧ s.fetch = .error ⟨.invalidAddress, s.pc.toNat⟩) ∨
      (s.pc.toNat % 2 = 0 ∧ s.pc.toNat > 0xFFE ∧ s.fetch = .error ⟨.memoryOutOfRange, s.pc.toNat⟩) ∨
      (s.pc.toNat % 2 = 0 ∧ s.pc.toNat ≤ 0xFFE ∧
        s.fetch = .ok (wordOfBytes (s.mem.read s.pc.toNat) (s.mem.read (s.pc.toNat + 1)))) := by
  unfold State.fetch
  by_cases h : s.pc.toNat % 2 = 1
  · exact .inl ⟨h, if_pos h⟩
  · by_cases h2 : s.pc.toNat > 0xFFE
    · exact .inr (.inl ⟨by omega, h2, by rw [if_neg h, if_pos h2]⟩)
    · exact .inr (.inr ⟨by omega, by omega, by rw [if_neg h, if_neg h2]⟩)

/-- The fetched word as the number of R83. -/
theorem wordOfBytes_toNat (hi lo : Byte) : (wordOfBytes hi lo).toNat = hi.toNat * 256 + lo.toNat := by
  have h : (hi ++ lo : BitVec (8 + 8)).toNat = hi.toNat * 256 + lo.toNat := by
    rw [BitVec.toNat_append, Nat.shiftLeft_eq, Nat.mul_comm, ← Nat.two_pow_add_eq_or_of_lt lo.isLt]
  exact h

/-! ### The key operands -/

/-- All that the key index can do (R341). -/
theorem State.keyIndex_cases (s : State) (b : Byte) :
    (∃ k : Fin 16, k.val = b.toNat ∧ s.keyIndex b = .ok k) ∨
      (15 < b.toNat ∧ s.policy.keyIndex = .fault ∧ s.keyIndex b = .error ⟨.invalidKeyIndex, b.toNat⟩) ∨
      (15 < b.toNat ∧ s.policy.keyIndex = .lowNibble ∧
        ∃ k : Fin 16, k.val = b.toNat % 16 ∧ s.keyIndex b = .ok k) := by
  unfold State.keyIndex
  by_cases h : b.toNat ≤ 0xF
  · exact .inl ⟨Fin.ofNat 16 b.toNat, by simp only [Fin.ofNat]; omega, if_pos h⟩
  · rw [if_neg h]
    cases hp : s.policy.keyIndex with
    | fault => exact .inr (.inl ⟨by omega, rfl, rfl⟩)
    | lowNibble => exact .inr (.inr ⟨by omega, rfl, Fin.ofNat 16 b.toNat, rfl, rfl⟩)

/-- No key is held exactly when there is no lowest one (R345). -/
theorem lowestKey_none (keys : Keys) : lowestKey keys = none ↔ ∀ k : Fin 16, keys[k] = false := by
  simp [lowestKey, List.find?_eq_none]

/-- The lowest key is held and no lower one is (R345). -/
theorem lowestKey_some (keys : Keys) (k : Fin 16) :
    lowestKey keys = some k ↔ keys[k] = true ∧ ∀ j : Fin 16, j < k → keys[j] = false := by
  unfold lowestKey
  rw [List.find?_eq_some_iff_getElem]
  constructor
  · rintro ⟨hk, i, hi, e, hj⟩
    have ei : i = k.val := by simpa [Fin.ext_iff] using e
    refine ⟨hk, fun j hjk => ?_⟩
    have := hj j.val (by rw [ei]; exact hjk)
    simpa using this
  · rintro ⟨hk, hj⟩
    refine ⟨hk, k.val, by simp, by simp, fun j hjk => ?_⟩
    have := hj ⟨j, by omega⟩ hjk
    simpa using this

/-! ### The register block (R394, R395) -/

theorem State.regsUpTo_length (s : State) (x : Reg) : (s.regsUpTo x).length = x.val + 1 := by
  simp [State.regsUpTo]

theorem State.regsUpTo_getD (s : State) (x r : Reg) (h : r ≤ x) :
    (s.regsUpTo x).getD r.val 0 = s.getV r := by
  have hr : r.val < x.val + 1 := Nat.lt_succ_of_le h
  simp [State.regsUpTo, State.getV, List.getD_eq_getElem?_getD, hr]

/-- Loading a block writes nothing but general registers. -/
theorem State.loadRegs_frame (s : State) (k : Nat) (bs : List Byte) :
    ∃ w, s.loadRegs k bs = { s with v := w } := by
  induction bs generalizing s k with
  | nil => exact ⟨s.v, rfl⟩
  | cons b bs ih =>
    obtain ⟨w, hw⟩ := ih (s.setV (Fin.ofNat 16 k) b) (k + 1)
    exact ⟨w, hw⟩

/-- Each register of the block holds its byte, and the others keep theirs (R395). -/
theorem State.loadRegs_getV (s : State) (k : Nat) (bs : List Byte) (hk : k + bs.length ≤ 16) (r : Reg) :
    (s.loadRegs k bs).getV r =
      if k ≤ r.val ∧ r.val < k + bs.length then bs.getD (r.val - k) 0 else s.getV r := by
  induction bs generalizing s k with
  | nil => simp only [State.loadRegs, List.length_nil]; split <;> [omega; rfl]
  | cons b bs ih =>
    simp only [List.length_cons] at hk
    have hv : (Fin.ofNat 16 k).val = k := Nat.mod_eq_of_lt (by omega)
    simp only [State.loadRegs, ih _ (k + 1) (by omega), List.length_cons, State.getV_setV, Fin.ext_iff, hv]
    by_cases h1 : r.val = k
    · simp [h1]
    · by_cases h2 : k ≤ r.val ∧ r.val < k + (bs.length + 1)
      · have e : r.val - k = (r.val - (k + 1)) + 1 := by omega
        rw [if_pos (by omega), if_pos h2, e, List.getD_cons_succ]
      · rw [if_neg (by omega), if_neg h2, if_neg h1]

/-! ### Flag and result (R251) -/

/-- SEQUENTIAL: the flag first, then the result from the registers as they then stand. -/
theorem State.flagAndResult_sequential (s : State) (x y : Reg) (f r : Byte → Byte → Byte)
    (h : s.policy.aliasing = .sequential) :
    s.flagAndResult x y f r =
      (s.setV vf (f (s.getV x) (s.getV y))).setV x
        (r ((s.setV vf (f (s.getV x) (s.getV y))).getV x) ((s.setV vf (f (s.getV x) (s.getV y))).getV y)) := by
  unfold State.flagAndResult; rw [h]

/-- FLAG_LAST: the result, then the flag, both from the registers before any write. -/
theorem State.flagAndResult_flagLast (s : State) (x y : Reg) (f r : Byte → Byte → Byte)
    (h : s.policy.aliasing = .flagLast) :
    s.flagAndResult x y f r =
      (s.setV x (r (s.getV x) (s.getV y))).setV vf (f (s.getV x) (s.getV y)) := by
  unfold State.flagAndResult; rw [h]

/-- Under either mode only general registers are written. -/
theorem State.flagAndResult_frame (s : State) (x y : Reg) (f r : Byte → Byte → Byte) :
    ∃ w, s.flagAndResult x y f r = { s with v := w } := by
  unfold State.flagAndResult
  cases s.policy.aliasing <;> exact ⟨_, rfl⟩

/-- Under either mode no register but Vx and VF is written. -/
theorem State.flagAndResult_getV_ne (s : State) (x y : Reg) (f r : Byte → Byte → Byte) (q : Reg)
    (hx : q ≠ x) (hf : q ≠ vf) : (s.flagAndResult x y f r).getV q = s.getV q := by
  unfold State.flagAndResult
  cases s.policy.aliasing <;> simp [hx, hf]

/-! ### The timers (R348) -/

theorem tickDown_toNat (b : Byte) : (tickDown b).toNat = b.toNat - 1 := by
  unfold tickDown
  split
  · next h => rw [BitVec.toNat_sub_of_le (by rw [BitVec.le_def]; exact h)]; rfl
  · next h => simp; omega

end Sys2Proof.Machine
end

