-- ==== Sys2Proof/Laws/Display.lean ====
section
/-! SUPPORT. The sprite blit (42_display.md R302 to R304): what one pixel does, and what a run of pixels on
distinct cells does. -/

namespace Sys2Proof.Machine

/-- A toggled cell is inverted and every other cell stays. -/
@[simp] theorem Display.pixel_toggle (d : Display) (px qx : Fin 64) (py qy : Fin 32) :
    (d.toggle px py).pixel qx qy = if qx = px ∧ qy = py then !d.pixel qx qy else d.pixel qx qy := by
  unfold Display.toggle Display.pixel
  by_cases hy : qy = py
  · subst hy
    by_cases hx : qx = px
    · subst hx; simp
    · have : px.val ≠ qx.val := fun e => hx (Fin.ext e.symm)
      simp [hx, Vector.getElem_set_ne, this]
  · have : py.val ≠ qy.val := fun e => hy (Fin.ext e.symm)
    simp [hy, Vector.getElem_set_ne, this]

/-- Every cell of the cleared grid is off (R301). -/
@[simp] theorem Display.pixel_off (px : Fin 64) (py : Fin 32) : Display.off.pixel px py = false := by
  simp [Display.off, Display.pixel]

/-- The set bits of one sprite row, as coordinates, most significant bit first. -/
def rowSites (xc py : Nat) (b : Byte) : List (Nat × Nat) :=
  ((List.range 8).filter fun c => b.getLsbD (7 - c)).map fun c => (xc + c, py)

/-- The set bits of a sprite, in drawing order. -/
def spriteSites (xc : Nat) : Nat → List Byte → List (Nat × Nat)
  | _, [] => []
  | yc, b :: bs => rowSites xc yc b ++ spriteSites xc (yc + 1) bs

/-- Drawing a row is drawing its set bits. -/
theorem drawRow_eq (edge : Config.SpriteEdge) (xc py : Nat) (b : Byte) (acc : Display × Bool) :
    drawRow edge xc py b acc = (rowSites xc py b).foldl (fun a p => drawPixel edge p.1 p.2 a) acc := by
  unfold drawRow rowSites
  rw [List.foldl_map, List.foldl_filter]

/-- Drawing a sprite is drawing its set bits. -/
theorem drawRows_eq (edge : Config.SpriteEdge) (xc yc : Nat) (bs : List Byte) (acc : Display × Bool) :
    drawRows edge xc yc bs acc =
      (spriteSites xc yc bs).foldl (fun a p => drawPixel edge p.1 p.2 a) acc := by
  induction bs generalizing yc acc with
  | nil => rfl
  | cons b bs ih => simp only [drawRows, spriteSites, List.foldl_append, ih, drawRow_eq]

/-- The sites of a sprite are its set bits. -/
theorem mem_spriteSites (xc yc : Nat) (bs : List Byte) (p : Nat × Nat) :
    p ∈ spriteSites xc yc bs ↔
      ∃ r c, r < bs.length ∧ c < 8 ∧ (bs.getD r 0).getLsbD (7 - c) = true ∧ p = (xc + c, yc + r) := by
  induction bs generalizing yc with
  | nil => simp [spriteSites]
  | cons b bs ih =>
    simp only [spriteSites, List.mem_append, ih, rowSites, List.mem_map, List.mem_filter, List.mem_range]
    constructor
    · rintro (⟨c, ⟨hc, hb⟩, rfl⟩ | ⟨r, c, hr, hc, hb, rfl⟩)
      · exact ⟨0, c, by simp, hc, by simpa using hb, by simp⟩
      · exact ⟨r + 1, c, by simpa using hr, hc, by simpa using hb, by simp; omega⟩
    · rintro ⟨r, c, hr, hc, hb, rfl⟩
      cases r with
      | zero => exact .inl ⟨c, ⟨hc, by simpa using hb⟩, by simp⟩
      | succ r =>
        exact .inr ⟨r, c, by simpa using hr, hc, by simpa using hb, by simp; omega⟩

/-- All that one pixel does to a cell (R302). -/
theorem drawPixel_pixel (edge : Config.SpriteEdge) (px py : Nat) (acc : Display × Bool) (cx : Fin 64)
    (cy : Fin 32) :
    (drawPixel edge px py acc).1.pixel cx cy =
      (acc.1.pixel cx cy ^^ decide (spriteCell edge px py = some (cx, cy))) := by
  unfold drawPixel
  cases h : spriteCell edge px py with
  | none => simp
  | some c =>
    by_cases e : c = (cx, cy)
    · subst e; simp
    · have : ¬ (cx = c.1 ∧ cy = c.2) := fun ⟨a, b⟩ => e (by rw [a, b])
      simp [this, e]

/-- All that one pixel does to the collision flag (R302). -/
theorem drawPixel_collision (edge : Config.SpriteEdge) (px py : Nat) (acc : Display × Bool) :
    (drawPixel edge px py acc).2 = true ↔
      acc.2 = true ∨ ∃ c, spriteCell edge px py = some c ∧ acc.1.pixel c.1 c.2 = true := by
  unfold drawPixel
  cases h : spriteCell edge px py with
  | none => simp
  | some c => simp

/-- Pixels on distinct cells: each cell is inverted exactly when some pixel lands on it, and the collision
flag is set exactly when some such cell was on at the start (R304). -/
theorem drawPixels_spec (edge : Config.SpriteEdge) (ps : List (Nat × Nat)) (acc : Display × Bool)
    (hd : ps.Pairwise fun p q =>
      ∀ c, spriteCell edge p.1 p.2 = some c → spriteCell edge q.1 q.2 ≠ some c) :
    (∀ cx cy, (ps.foldl (fun a p => drawPixel edge p.1 p.2 a) acc).1.pixel cx cy =
      (acc.1.pixel cx cy ^^ decide (∃ p ∈ ps, spriteCell edge p.1 p.2 = some (cx, cy)))) ∧
    ((ps.foldl (fun a p => drawPixel edge p.1 p.2 a) acc).2 = true ↔
      acc.2 = true ∨ ∃ p ∈ ps, ∃ c, spriteCell edge p.1 p.2 = some c ∧ acc.1.pixel c.1 c.2 = true) := by
  induction ps generalizing acc with
  | nil => simp
  | cons p ps ih =>
    rw [List.pairwise_cons] at hd
    obtain ⟨h1, h2⟩ := ih (drawPixel edge p.1 p.2 acc) hd.2
    refine ⟨fun cx cy => ?_, ?_⟩
    · rw [List.foldl_cons, h1, drawPixel_pixel]
      by_cases e : spriteCell edge p.1 p.2 = some (cx, cy)
      · have hn : ¬ ∃ q ∈ ps, spriteCell edge q.1 q.2 = some (cx, cy) :=
          fun ⟨q, hq, eq⟩ => hd.1 q hq _ e eq
        simp [e, hn]
      · simp [e]
    · rw [List.foldl_cons, h2, drawPixel_collision]
      simp only [List.mem_cons, exists_eq_or_imp]
      have key : ∀ q ∈ ps, ∀ c, spriteCell edge q.1 q.2 = some c →
          ((drawPixel edge p.1 p.2 acc).1.pixel c.1 c.2 = acc.1.pixel c.1 c.2) := fun q hq c hc => by
        rw [drawPixel_pixel]
        have : spriteCell edge p.1 p.2 ≠ some (c.1, c.2) := fun e => hd.1 q hq _ e hc
        simp [this]
      constructor
      · rintro ((h | h) | ⟨q, hq, c, hc, hp⟩)
        · exact .inl h
        · exact .inr (.inl h)
        · exact .inr (.inr ⟨q, hq, c, hc, by rw [← key q hq c hc]; exact hp⟩)
      · rintro (h | h | ⟨q, hq, c, hc, hp⟩)
        · exact .inl (.inl h)
        · exact .inl (.inr h)
        · exact .inr ⟨q, hq, c, hc, by rw [key q hq c hc]; exact hp⟩

end Sys2Proof.Machine
end

