-- ==== Sys2Proof/Laws/Exec.lean ====
section
/-! SUPPORT. What executing one instruction can do, said once for all 34 forms: it takes a fault of its own
(60_exceptions.md R501), or it has an effect within these bounds. Every whole-machine rule follows from this. -/

namespace Sys2Proof.Machine

/-- All that a block read can do: every byte, or the fault of the first address outside memory. -/
theorem State.memReads_cases (s : State) (a n : Nat) :
    (∃ bs, s.memReads a n = .ok bs ∧ bs.length = n) ∨
      ∃ b, 0xFFF < b ∧ s.memReads a n = .error ⟨.memoryOutOfRange, b⟩ := by
  by_cases h : ∀ k, k < n → a + k ≤ 0xFFF
  · exact .inl ⟨_, s.memReads_ok a n h, by simp⟩
  · have hx : ∃ k, k < n ∧ a + k > 0xFFF := by
      by_contra hc
      exact h fun k hk => by by_contra hh; exact hc ⟨k, hk, by omega⟩
    refine .inr ⟨a + Nat.find hx, (Nat.find_spec hx).2, ?_⟩
    refine s.memReads_error a n _ (Nat.find_spec hx).1 (Nat.find_spec hx).2 fun j hj => ?_
    have := Nat.find_min hx hj
    have := (Nat.find_spec hx).1
    omega

/-- All that a block write can do: every byte, each at a writable address, or the fault of the first
address that is not. -/
theorem State.memWrites_cases (s : State) (a : Nat) (bs : List Byte) :
    ((∀ k, k < bs.length → s.Writable (a + k)) ∧
      s.memWrites a bs = .ok { s with mem := s.mem.place a bs }) ∨
      ∃ c b, ((c = .memoryOutOfRange ∧ 0xFFF < b) ∨ (c = .protectedWrite ∧ b < 0x200)) ∧
        s.memWrites a bs = .error ⟨c, b⟩ := by
  by_cases h : ∀ k, k < bs.length → s.Writable (a + k)
  · exact .inl ⟨h, s.memWrites_ok a bs h⟩
  · have hx : ∃ k, k < bs.length ∧ ¬ s.Writable (a + k) := by
      by_contra hc
      exact h fun k hk => by by_contra hh; exact hc ⟨k, hk, hh⟩
    classical
    have hf := (Nat.find_spec hx).2
    have e := s.memWrites_error a bs _ (Nat.find_spec hx).1 hf fun j hj => by
      by_contra hh
      exact Nat.find_min hx hj ⟨lt_trans hj (Nat.find_spec hx).1, hh⟩
    refine .inr ⟨_, _, ?_, e⟩
    by_cases hb : a + Nat.find hx > 0xFFF
    · exact .inl ⟨if_pos hb, hb⟩
    · refine .inr ⟨if_neg hb, ?_⟩
      by_contra hn
      exact hf ⟨by omega, fun _ => by omega⟩

/-- The bounds of every instruction's effect. -/
structure Effect (i : Instr) (s t : State) : Prop where
  /-- The run state, the latch and the model's own fields stay. -/
  run : KeepsRun s t
  /-- PC goes on, skips, stays, is a jump's target or is a popped slot. -/
  pc : t.pc = s.pc + 2 ∨ t.pc = s.pc + 2 + 2 ∨ t.pc = s.pc + 2 - 2 ∨
    (t.pc.toNat ≤ 0x10FE ∧ ((∃ n, i = .jpNnn n) ∨ (∃ n, i = .callNnn n) ∨ ∃ n, i = .jpV0Nnn n)) ∨
    ∃ k : Fin 16, t.pc = s.stack[k]
  /-- A slot stays or receives the address after the instruction. -/
  stack : ∀ k : Fin 16, t.stack[k] = s.stack[k] ∨ t.stack[k] = s.pc + 2
  /-- Under WRAP the depth stays or is 4 bits. -/
  sp : s.policy.stack = .wrap → t.sp = s.sp ∨ t.sp.val ≤ 15
  /-- Memory stays or receives bytes at writable addresses. -/
  mem : t.mem = s.mem ∨
    ∃ a bs, (∀ k, k < bs.length → s.Writable (a + k)) ∧ t.mem = s.mem.place a bs
  /-- I stays but for three forms. -/
  index : t.i = s.i ∨ (∃ n, i = .ldINnn n) ∨ (∃ x, i = .addIVx x) ∨ ∃ x, i = .ldFVx x
  /-- DT stays but for its load. -/
  dt : t.dt = s.dt ∨ ∃ x, i = .ldDtVx x
  /-- ST stays but for its load. -/
  st : t.st = s.st ∨ ∃ x, i = .ldStVx x

/-- The effect of an instruction that only writes general registers and leaves PC at a + 2. -/
theorem Effect.ofRegs (i : Instr) (s : State) (w : Vector Byte 16) :
    Effect i s { s.advance with v := w } where
  run := ⟨rfl, rfl, rfl, rfl, rfl, rfl⟩
  pc := .inl rfl
  stack := fun _ => .inl rfl
  sp := fun _ => .inl rfl
  mem := .inl rfl
  index := .inl rfl
  dt := .inl rfl
  st := .inl rfl

/-- The effect of a skip. -/
theorem Effect.ofSkip (i : Instr) (s : State) (c : Bool) : Effect i s (s.advance.skipIf c) where
  run := ⟨rfl, rfl, rfl, rfl, rfl, rfl⟩
  pc := by cases c <;> simp
  stack := fun _ => .inl rfl
  sp := fun _ => .inl rfl
  mem := .inl rfl
  index := .inl rfl
  dt := .inl rfl
  st := .inl rfl

/-- The effect of a jump to a bounded target. -/
theorem Effect.ofJump (i : Instr) (s : State) (a : Word) (ha : a.toNat ≤ 0x10FE)
    (hi : (∃ n, i = .jpNnn n) ∨ (∃ n, i = .callNnn n) ∨ ∃ n, i = .jpV0Nnn n) :
    Effect i s (s.advance.jump a) where
  run := ⟨rfl, rfl, rfl, rfl, rfl, rfl⟩
  pc := .inr (.inr (.inr (.inl ⟨ha, hi⟩)))
  stack := fun _ => .inl rfl
  sp := fun _ => .inl rfl
  mem := .inl rfl
  index := .inl rfl
  dt := .inl rfl
  st := .inl rfl

/-- The effect of a block store. -/
theorem Effect.ofStore (i : Instr) (s : State) (a : Nat) (bs : List Byte)
    (h : ∀ k, k < bs.length → s.Writable (a + k)) :
    Effect i s { s.advance with mem := s.mem.place a bs } where
  run := ⟨rfl, rfl, rfl, rfl, rfl, rfl⟩
  pc := .inl rfl
  stack := fun _ => .inl rfl
  sp := fun _ => .inl rfl
  mem := .inr ⟨a, bs, h, rfl⟩
  index := .inl rfl
  dt := .inl rfl
  st := .inl rfl

theorem addrOf_toNat (nnn : Addr12) : (addrOf nnn).toNat = nnn.toNat := by
  have := nnn.isLt
  simp only [addrOf, BitVec.toNat_setWidth]
  omega

theorem offsetTarget_toNat (b : Byte) (nnn : Addr12) :
    (offsetTarget b nnn).toNat = b.toNat + nnn.toNat := by
  have := nnn.isLt
  have := b.isLt
  simp only [offsetTarget, wordOf, BitVec.toNat_add, addrOf_toNat, BitVec.toNat_setWidth]
  omega

/-- What `exec` can do. -/
theorem exec_cases (i : Instr) (s t : State) (h : exec i s = .next t) :
    (∃ c n, t = s.raise ⟨c, n⟩ ∧ MayRaise i c n) ∨ Effect i s t := by
  cases i with
  | cls => cases h; exact .inr ⟨⟨rfl, rfl, rfl, rfl, rfl, rfl⟩, .inl rfl, fun _ => .inl rfl, fun _ => .inl rfl,
      .inl rfl, .inl rfl, .inl rfl, .inl rfl⟩
  | ret =>
    simp only [exec, execRet] at h
    rcases s.advance.popPc_cases with ⟨_, _, e⟩ | ⟨hp, _, e⟩ | ⟨hp, e⟩ <;> rw [e] at h <;> cases h
    · exact .inl ⟨_, _, rfl, rfl, rfl⟩
    · refine .inr ⟨⟨rfl, rfl, rfl, rfl, rfl, rfl⟩, .inr (.inr (.inr (.inr ⟨_, rfl⟩))), fun _ => .inl rfl,
        fun hw => ?_, .inl rfl, .inl rfl, .inl rfl, .inl rfl⟩
      rw [State.advance_policy, hw] at hp; cases hp
    · refine .inr ⟨⟨rfl, rfl, rfl, rfl, rfl, rfl⟩, .inr (.inr (.inr (.inr ⟨_, rfl⟩))), fun _ => .inl rfl,
        fun _ => .inr ?_, .inl rfl, .inl rfl, .inl rfl, .inl rfl⟩
      simp only [depth_val]; omega
  | jpNnn nnn =>
    cases h
    exact .inr (Effect.ofJump _ s _ (by have := nnn.isLt; rw [addrOf_toNat]; omega) (.inl ⟨_, rfl⟩))
  | callNnn nnn =>
    simp only [exec, execCallNnn] at h
    rcases s.advance.push_cases s.advance.pc with ⟨_, _, e⟩ | ⟨hp, _, e⟩ | ⟨hp, e⟩ <;> rw [e] at h <;> cases h
    · exact .inl ⟨_, _, rfl, rfl, rfl⟩
    all_goals
      refine .inr ⟨⟨rfl, rfl, rfl, rfl, rfl, rfl⟩, .inr (.inr (.inr (.inl ⟨?_, .inr (.inl ⟨_, rfl⟩)⟩))),
        fun k => ?_, fun hw => ?_, .inl rfl, .inl rfl, .inl rfl, .inl rfl⟩
      · have := nnn.isLt
        rw [State.jump_pc, addrOf_toNat]; omega
      · by_cases hk : k = slot s.sp.val
        · exact .inr ((stack_set _ _ _ _).trans (if_pos hk))
        · exact .inl ((stack_set _ _ _ _).trans (if_neg hk))
    · rw [State.advance_policy, hw] at hp; cases hp
    · exact .inr (by simp only [State.jump_sp, depth_val]; omega)
  | seVxKk x kk => cases h; exact .inr (Effect.ofSkip _ _ _)
  | sneVxKk x kk => cases h; exact .inr (Effect.ofSkip _ _ _)
  | seVxVy x y => cases h; exact .inr (Effect.ofSkip _ _ _)
  | ldVxKk x kk => cases h; exact .inr (Effect.ofRegs _ _ _)
  | addVxKk x kk => cases h; exact .inr (Effect.ofRegs _ _ _)
  | ldVxVy x y => cases h; exact .inr (Effect.ofRegs _ _ _)
  | orVxVy x y => cases h; exact .inr (Effect.ofRegs _ _ _)
  | andVxVy x y => cases h; exact .inr (Effect.ofRegs _ _ _)
  | xorVxVy x y => cases h; exact .inr (Effect.ofRegs _ _ _)
  | addVxVy x y => cases h; exact .inr (Effect.ofRegs _ _ _)
  | subVxVy x y =>
    cases h
    obtain ⟨w, hw⟩ := s.advance.flagAndResult_frame x y noBorrowFlag differenceByte
    rw [hw]; exact .inr (Effect.ofRegs _ _ _)
  | shrVx x =>
    cases h
    obtain ⟨w, hw⟩ := s.advance.flagAndResult_frame x x (fun a _ => lowBitFlag a) (fun a _ => halfByte a)
    rw [hw]; exact .inr (Effect.ofRegs _ _ _)
  | subnVxVy x y =>
    cases h
    obtain ⟨w, hw⟩ := s.advance.flagAndResult_frame x y (fun a b => noBorrowFlag b a)
      (fun a b => differenceByte b a)
    rw [hw]; exact .inr (Effect.ofRegs _ _ _)
  | shlVx x =>
    cases h
    obtain ⟨w, hw⟩ := s.advance.flagAndResult_frame x x (fun a _ => highBitFlag a) (fun a _ => doubleByte a)
    rw [hw]; exact .inr (Effect.ofRegs _ _ _)
  | sneVxVy x y => cases h; exact .inr (Effect.ofSkip _ _ _)
  | ldINnn nnn => cases h; exact .inr ⟨⟨rfl, rfl, rfl, rfl, rfl, rfl⟩, .inl rfl, fun _ => .inl rfl,
      fun _ => .inl rfl, .inl rfl, .inr (.inl ⟨_, rfl⟩), .inl rfl, .inl rfl⟩
  | jpV0Nnn nnn =>
    cases h
    refine .inr (Effect.ofJump _ s _ ?_ (.inr (.inr ⟨_, rfl⟩)))
    have := nnn.isLt
    have := (s.getV 0).isLt
    rw [offsetTarget_toNat]; omega
  | rndVxKk x kk => cases h; exact .inr (Effect.ofRegs _ _ _)
  | drwVxVyN x y n =>
    simp only [exec, execDrwVxVyN] at h
    rcases s.memReads_cases s.base n.val with ⟨bs, e, _⟩ | ⟨b, hb, e⟩ <;> rw [e] at h <;> cases h
    · exact .inr ⟨⟨rfl, rfl, rfl, rfl, rfl, rfl⟩, .inl rfl, fun _ => .inl rfl, fun _ => .inl rfl, .inl rfl,
        .inl rfl, .inl rfl, .inl rfl⟩
    · exact .inl ⟨_, _, rfl, rfl, hb⟩
  | skpVx x =>
    simp only [exec, execSkpVx] at h
    rcases s.keyIndex_cases (s.getV x) with ⟨k, _, e⟩ | ⟨hb, _, e⟩ | ⟨_, _, k, _, e⟩ <;> rw [e] at h <;> cases h
    · exact .inr (Effect.ofSkip _ _ _)
    · exact .inl ⟨_, _, rfl, rfl, hb⟩
    · exact .inr (Effect.ofSkip _ _ _)
  | sknpVx x =>
    simp only [exec, execSknpVx] at h
    rcases s.keyIndex_cases (s.getV x) with ⟨k, _, e⟩ | ⟨hb, _, e⟩ | ⟨_, _, k, _, e⟩ <;> rw [e] at h <;> cases h
    · exact .inr (Effect.ofSkip _ _ _)
    · exact .inl ⟨_, _, rfl, rfl, hb⟩
    · exact .inr (Effect.ofSkip _ _ _)
  | ldVxDt x => cases h; exact .inr (Effect.ofRegs _ _ _)
  | ldVxK x =>
    simp only [exec, execLdVxK] at h
    cases hk : lowestKey s.keys <;> rw [hk] at h <;> cases h
    · exact .inr ⟨⟨rfl, rfl, rfl, rfl, rfl, rfl⟩, .inr (.inr (.inl rfl)), fun _ => .inl rfl, fun _ => .inl rfl,
        .inl rfl, .inl rfl, .inl rfl, .inl rfl⟩
    · exact .inr (Effect.ofRegs _ _ _)
  | ldDtVx x => cases h; exact .inr ⟨⟨rfl, rfl, rfl, rfl, rfl, rfl⟩, .inl rfl, fun _ => .inl rfl,
      fun _ => .inl rfl, .inl rfl, .inl rfl, .inr ⟨_, rfl⟩, .inl rfl⟩
  | ldStVx x => cases h; exact .inr ⟨⟨rfl, rfl, rfl, rfl, rfl, rfl⟩, .inl rfl, fun _ => .inl rfl,
      fun _ => .inl rfl, .inl rfl, .inl rfl, .inl rfl, .inr ⟨_, rfl⟩⟩
  | addIVx x => cases h; exact .inr ⟨⟨rfl, rfl, rfl, rfl, rfl, rfl⟩, .inl rfl, fun _ => .inl rfl,
      fun _ => .inl rfl, .inl rfl, .inr (.inr (.inl ⟨_, rfl⟩)), .inl rfl, .inl rfl⟩
  | ldFVx x => cases h; exact .inr ⟨⟨rfl, rfl, rfl, rfl, rfl, rfl⟩, .inl rfl, fun _ => .inl rfl,
      fun _ => .inl rfl, .inl rfl, .inr (.inr (.inr ⟨_, rfl⟩)), .inl rfl, .inl rfl⟩
  | ldBVx x =>
    simp only [exec, execLdBVx] at h
    rcases s.advance.memWrites_cases s.base (bcdDigits (s.getV x)) with ⟨hw, e⟩ | ⟨c, b, hc, e⟩ <;>
      rw [e] at h <;> cases h
    · exact .inr (Effect.ofStore _ s _ _ hw)
    · exact .inl ⟨_, _, rfl, hc⟩
  | ldMemVx x =>
    simp only [exec, execLdMemVx] at h
    rcases s.advance.memWrites_cases s.base (s.regsUpTo x) with ⟨hw, e⟩ | ⟨c, b, hc, e⟩ <;>
      rw [e] at h <;> cases h
    · exact .inr (Effect.ofStore _ s _ _ hw)
    · exact .inl ⟨_, _, rfl, hc⟩
  | ldVxMem x =>
    simp only [exec, execLdVxMem] at h
    rcases s.memReads_cases s.base (x.val + 1) with ⟨bs, e, _⟩ | ⟨b, hb, e⟩ <;> rw [e] at h <;> cases h
    · obtain ⟨w, hw⟩ := s.advance.loadRegs_frame 0 bs
      rw [hw]; exact .inr (Effect.ofRegs _ _ _)
    · exact .inl ⟨_, _, rfl, rfl, hb⟩

end Sys2Proof.Machine
end

