-- ==== Sys2Proof/Laws/PerInstr.lean ====
section
/-! SUPPORT. One family over all instructions: an instruction is well formed, and its canonical encoding is a
word of its own row of the opcode map (30_encoding.md R134, R136). -/

namespace Sys2Proof.Laws.EncodeRow

/-- `i`'s operands fit their fields, and `encode i` has its row's masked bits. -/
def Statement (i : Instr) : Prop := i.WellFormed ∧ encode i &&& i.row.mask = i.row.pattern

/-! The row of a format: the encoder's fixed fields are what the row's mask keeps. -/

theorem formatA_row (op : BitVec 4) (nnn : Addr12) (p : Word) (h : p.toNat = op.toNat * 4096) :
    formatA op nnn &&& 0xF000 = p := by
  have := nnn.isLt
  apply BitVec.eq_of_toNat_eq
  rw [mask_F000, Word.op_eq, formatA_toNat, h]
  omega

theorem formatXK_row (op : BitVec 4) (x : Reg) (kk : Byte) (p : Word) (h : p.toNat = op.toNat * 4096) :
    formatXK op x kk &&& 0xF000 = p := by
  have := x.isLt
  have := kk.isLt
  apply BitVec.eq_of_toNat_eq
  rw [mask_F000, Word.op_eq, formatXK_toNat, h]
  omega

theorem formatXS_row (op : BitVec 4) (x : Reg) (kk : Byte) (p : Word)
    (h : p.toNat = op.toNat * 4096 + kk.toNat) : formatXK op x kk &&& 0xF0FF = p := by
  have := x.isLt
  have := kk.isLt
  apply BitVec.eq_of_toNat_eq
  rw [mask_F0FF, Word.op_eq, Word.kk_toNat, formatXK_toNat, h]
  omega

theorem formatXY_row (op : BitVec 4) (x y : Reg) (n : BitVec 4) (p : Word)
    (h : p.toNat = op.toNat * 4096) : formatXYN op x y n &&& 0xF000 = p := by
  have := x.isLt
  have := y.isLt
  have := n.isLt
  apply BitVec.eq_of_toNat_eq
  rw [mask_F000, Word.op_eq, formatXYN_toNat, h]
  omega

theorem formatXYS_row (op : BitVec 4) (x y : Reg) (n : BitVec 4) (p : Word)
    (h : p.toNat = op.toNat * 4096 + n.toNat) : formatXYN op x y n &&& 0xF00F = p := by
  have := x.isLt
  have := y.isLt
  have := n.isLt
  apply BitVec.eq_of_toNat_eq
  rw [mask_F00F, Word.op_eq, Word.n_val, formatXYN_toNat, h]
  omega

/-! The operands of a form fit their fields, by their types. -/

theorem fits_of (x y n : Fin 16) (kk : Byte) (nnn : Addr12) :
    RawOperands.fits ⟨x.val, y.val, n.val, kk.toNat, nnn.toNat⟩ = true := by
  have := kk.isLt
  have := nnn.isLt
  simp only [RawOperands.fits, Bool.and_eq_true, decide_eq_true_eq]
  omega

theorem cls : Statement (.cls) :=
  ⟨fits_of 0 0 0 0 0, formatXS_row _ _ _ _ rfl⟩

theorem ret : Statement (.ret) :=
  ⟨fits_of 0 0 0 0 0, formatXS_row _ _ _ _ rfl⟩

theorem jpNnn (nnn : Addr12) : Statement (.jpNnn nnn) :=
  ⟨fits_of 0 0 0 0 nnn, formatA_row _ _ _ rfl⟩

theorem callNnn (nnn : Addr12) : Statement (.callNnn nnn) :=
  ⟨fits_of 0 0 0 0 nnn, formatA_row _ _ _ rfl⟩

theorem seVxKk (x : Reg) (kk : Byte) : Statement (.seVxKk x kk) :=
  ⟨fits_of x 0 0 kk 0, formatXK_row _ _ _ _ rfl⟩

theorem sneVxKk (x : Reg) (kk : Byte) : Statement (.sneVxKk x kk) :=
  ⟨fits_of x 0 0 kk 0, formatXK_row _ _ _ _ rfl⟩

theorem seVxVy (x : Reg) (y : Reg) : Statement (.seVxVy x y) :=
  ⟨fits_of x y 0 0 0, formatXY_row _ _ _ _ _ rfl⟩

theorem ldVxKk (x : Reg) (kk : Byte) : Statement (.ldVxKk x kk) :=
  ⟨fits_of x 0 0 kk 0, formatXK_row _ _ _ _ rfl⟩

theorem addVxKk (x : Reg) (kk : Byte) : Statement (.addVxKk x kk) :=
  ⟨fits_of x 0 0 kk 0, formatXK_row _ _ _ _ rfl⟩

theorem ldVxVy (x : Reg) (y : Reg) : Statement (.ldVxVy x y) :=
  ⟨fits_of x y 0 0 0, formatXYS_row _ _ _ _ _ rfl⟩

theorem orVxVy (x : Reg) (y : Reg) : Statement (.orVxVy x y) :=
  ⟨fits_of x y 0 0 0, formatXYS_row _ _ _ _ _ rfl⟩

theorem andVxVy (x : Reg) (y : Reg) : Statement (.andVxVy x y) :=
  ⟨fits_of x y 0 0 0, formatXYS_row _ _ _ _ _ rfl⟩

theorem xorVxVy (x : Reg) (y : Reg) : Statement (.xorVxVy x y) :=
  ⟨fits_of x y 0 0 0, formatXYS_row _ _ _ _ _ rfl⟩

theorem addVxVy (x : Reg) (y : Reg) : Statement (.addVxVy x y) :=
  ⟨fits_of x y 0 0 0, formatXYS_row _ _ _ _ _ rfl⟩

theorem subVxVy (x : Reg) (y : Reg) : Statement (.subVxVy x y) :=
  ⟨fits_of x y 0 0 0, formatXYS_row _ _ _ _ _ rfl⟩

theorem shrVx (x : Reg) : Statement (.shrVx x) :=
  ⟨fits_of x 0 0 0 0, formatXYS_row _ _ _ _ _ rfl⟩

theorem subnVxVy (x : Reg) (y : Reg) : Statement (.subnVxVy x y) :=
  ⟨fits_of x y 0 0 0, formatXYS_row _ _ _ _ _ rfl⟩

theorem shlVx (x : Reg) : Statement (.shlVx x) :=
  ⟨fits_of x 0 0 0 0, formatXYS_row _ _ _ _ _ rfl⟩

theorem sneVxVy (x : Reg) (y : Reg) : Statement (.sneVxVy x y) :=
  ⟨fits_of x y 0 0 0, formatXY_row _ _ _ _ _ rfl⟩

theorem ldINnn (nnn : Addr12) : Statement (.ldINnn nnn) :=
  ⟨fits_of 0 0 0 0 nnn, formatA_row _ _ _ rfl⟩

theorem jpV0Nnn (nnn : Addr12) : Statement (.jpV0Nnn nnn) :=
  ⟨fits_of 0 0 0 0 nnn, formatA_row _ _ _ rfl⟩

theorem rndVxKk (x : Reg) (kk : Byte) : Statement (.rndVxKk x kk) :=
  ⟨fits_of x 0 0 kk 0, formatXK_row _ _ _ _ rfl⟩

theorem drwVxVyN (x : Reg) (y : Reg) (n : Fin 16) : Statement (.drwVxVyN x y n) :=
  ⟨fits_of x y n 0 0, formatXY_row _ _ _ _ _ rfl⟩

theorem skpVx (x : Reg) : Statement (.skpVx x) :=
  ⟨fits_of x 0 0 0 0, formatXS_row _ _ _ _ rfl⟩

theorem sknpVx (x : Reg) : Statement (.sknpVx x) :=
  ⟨fits_of x 0 0 0 0, formatXS_row _ _ _ _ rfl⟩

theorem ldVxDt (x : Reg) : Statement (.ldVxDt x) :=
  ⟨fits_of x 0 0 0 0, formatXS_row _ _ _ _ rfl⟩

theorem ldVxK (x : Reg) : Statement (.ldVxK x) :=
  ⟨fits_of x 0 0 0 0, formatXS_row _ _ _ _ rfl⟩

theorem ldDtVx (x : Reg) : Statement (.ldDtVx x) :=
  ⟨fits_of x 0 0 0 0, formatXS_row _ _ _ _ rfl⟩

theorem ldStVx (x : Reg) : Statement (.ldStVx x) :=
  ⟨fits_of x 0 0 0 0, formatXS_row _ _ _ _ rfl⟩

theorem addIVx (x : Reg) : Statement (.addIVx x) :=
  ⟨fits_of x 0 0 0 0, formatXS_row _ _ _ _ rfl⟩

theorem ldFVx (x : Reg) : Statement (.ldFVx x) :=
  ⟨fits_of x 0 0 0 0, formatXS_row _ _ _ _ rfl⟩

theorem ldBVx (x : Reg) : Statement (.ldBVx x) :=
  ⟨fits_of x 0 0 0 0, formatXS_row _ _ _ _ rfl⟩

theorem ldMemVx (x : Reg) : Statement (.ldMemVx x) :=
  ⟨fits_of x 0 0 0 0, formatXS_row _ _ _ _ rfl⟩

theorem ldVxMem (x : Reg) : Statement (.ldVxMem x) :=
  ⟨fits_of x 0 0 0 0, formatXS_row _ _ _ _ rfl⟩

end Sys2Proof.Laws.EncodeRow
end

