-- ==== Sys2Proof/Tests/Slice0.lean ====
section
/-! SUPPORT. Tests. Expected results are the spec's own vectors (95_test_vectors.md, named by their numbers); each
runs one step, fetching the word at PC. The `witness_` theorems show states and operands that meet the
hypotheses of the obligation they are named after, clause by clause at the boundary values. -/

namespace Sys2Proof.Tests

open Sys2Proof.Machine

/-! ### Small states -/

/-- One field of the state a step answers. -/
def look {α : Type} (f : State → α) : Result → Option α
  | .next t => some (f t)
  | _ => none

/-- One step with `w` at PC. -/
def runs (w : Word) (s : State) : Result := cpuStep (s.placeWord w)

/-- Reset with these registers. -/
def regs (l : List (Reg × Byte)) : State := l.foldl (fun s p => s.setV p.1 p.2) State.reset

/-- Reset with I. -/
def atI (i : Word) : State := { State.reset with i := i }

/-- Reset with a depth. -/
def atSp (sp : Fin 17) : State := { State.reset with sp := sp }

/-- Reset with these keys held. -/
def held (l : List (Fin 16)) : State :=
  { State.reset with keys := l.foldl (fun (k : Keys) (j : Fin 16) => k.set j.val true) State.reset.keys }

/-- Reset with one pixel on. -/
def lit (px : Fin 64) (py : Fin 32) : State := { State.reset with disp := State.reset.disp.toggle px py }

/-- The alternative policies of 00_scope.md R5, one at a time. -/
def wrapStack (s : State) : State := { s with policy := { standardPolicies with stack := .wrap } }
def nopUnknown (s : State) : State := { s with policy := { standardPolicies with unknown := .nop } }
def wrapEdge (s : State) : State := { s with policy := { standardPolicies with edge := .wrap } }
def allowLow (s : State) : State := { s with policy := { standardPolicies with lowWrite := .allow } }
def lowNibble (s : State) : State := { s with policy := { standardPolicies with keyIndex := .lowNibble } }
def flagLast (s : State) : State := { s with policy := { standardPolicies with aliasing := .flagLast } }

/-! ### Well-formed operands: each check refuses an operand one too large, and none refuses the largest -/

theorem test_wellFormed_x : RawOperands.fits { x := 16 } = false := by decide
theorem test_wellFormed_y : RawOperands.fits { y := 16 } = false := by decide
theorem test_wellFormed_n : RawOperands.fits { n := 16 } = false := by decide
theorem test_wellFormed_kk : RawOperands.fits { kk := 256 } = false := by decide
theorem test_wellFormed_nnn : RawOperands.fits { nnn := 4096 } = false := by decide
theorem test_wellFormed_largest : RawOperands.fits ⟨15, 15, 15, 255, 4095⟩ = true := by decide

/-! ### Decoding: words written from the patterns of 30_encoding.md R134 -/

theorem test_decode_family0 :
    decodeWord 0x00E0 = .ok .cls ∧ decodeWord 0x00EE = .ok .ret ∧ decodeWord 0x05E0 = .ok .cls ∧
      decodeWord 0x0000 = .error (.unknownOpcode 0x0000) ∧
      decodeWord 0x0123 = .error (.unknownOpcode 0x0123) := by decide

theorem test_decode_jumps :
    decodeWord 0x1ABC = .ok (.jpNnn 0xABC) ∧ decodeWord 0x2300 = .ok (.callNnn 0x300) ∧
      decodeWord 0xB300 = .ok (.jpV0Nnn 0x300) := by decide

theorem test_decode_skips :
    decodeWord 0x3342 = .ok (.seVxKk 3 0x42) ∧ decodeWord 0x4342 = .ok (.sneVxKk 3 0x42) ∧
      decodeWord 0x512F = .ok (.seVxVy 1 2) ∧ decodeWord 0x9120 = .ok (.sneVxVy 1 2) := by decide

theorem test_decode_immediates :
    decodeWord 0x6A2F = .ok (.ldVxKk 10 0x2F) ∧ decodeWord 0x7001 = .ok (.addVxKk 0 0x01) ∧
      decodeWord 0xC20F = .ok (.rndVxKk 2 0x0F) ∧ decodeWord 0xA300 = .ok (.ldINnn 0x300) := by decide

theorem test_decode_family8 :
    decodeWord 0x8120 = .ok (.ldVxVy 1 2) ∧ decodeWord 0x8121 = .ok (.orVxVy 1 2) ∧
      decodeWord 0x8122 = .ok (.andVxVy 1 2) ∧ decodeWord 0x8123 = .ok (.xorVxVy 1 2) ∧
      decodeWord 0x8124 = .ok (.addVxVy 1 2) ∧ decodeWord 0x8125 = .ok (.subVxVy 1 2) ∧
      decodeWord 0x81A6 = .ok (.shrVx 1) ∧ decodeWord 0x8127 = .ok (.subnVxVy 1 2) ∧
      decodeWord 0x81AE = .ok (.shlVx 1) ∧ decodeWord 0x8128 = .error (.unknownOpcode 0x8128) := by decide

theorem test_decode_draw : decodeWord 0xD01F = .ok (.drwVxVyN 0 1 15) := by decide

theorem test_decode_familyE :
    decodeWord 0xE59E = .ok (.skpVx 5) ∧ decodeWord 0xE5A1 = .ok (.sknpVx 5) ∧
      decodeWord 0xE5A2 = .error (.unknownOpcode 0xE5A2) := by decide

theorem test_decode_familyF :
    decodeWord 0xF307 = .ok (.ldVxDt 3) ∧ decodeWord 0xF20A = .ok (.ldVxK 2) ∧
      decodeWord 0xF415 = .ok (.ldDtVx 4) ∧ decodeWord 0xF418 = .ok (.ldStVx 4) ∧
      decodeWord 0xF21E = .ok (.addIVx 2) ∧ decodeWord 0xF329 = .ok (.ldFVx 3) ∧
      decodeWord 0xF033 = .ok (.ldBVx 0) ∧ decodeWord 0xF155 = .ok (.ldMemVx 1) ∧
      decodeWord 0xF265 = .ok (.ldVxMem 2) ∧ decodeWord 0xF0FF = .error (.unknownOpcode 0xF0FF) := by decide

theorem test_decode_bytes :
    decodeBytes [0x12, 0x34, 0x56] = .ok (.jpNnn 0x234, [0x56]) ∧ decodeBytes [0x12] = .error .truncated := by
  decide

theorem test_encode :
    encode (.jpNnn 0xABC) = 0x1ABC ∧ encode (.seVxVy 1 2) = 0x5120 ∧ encode (.shrVx 1) = 0x8106 ∧
      encode (.drwVxVyN 0 1 5) = 0xD015 ∧ encode (.ldVxMem 2) = 0xF265 := by decide

theorem test_table_word : decodeTableWord 16 0xD015 = some (.drwVxVyN 0 1 5) ∧ decodeTableWord 16 0 = none := by
  decide

/-! ### Control transfer (C.1 to C.25) -/

theorem test_ret :
    look (fun t => (t.pc, t.sp.val, t.stack[0])) (runs 0x00EE { atSp 1 with stack := State.reset.stack.set 0 0x206 })
      = some (0x206, 0, 0x206) := by decide

theorem test_ret_empty :
    look (·.status) (runs 0x00EE State.reset) = some (.faulted .stackUnderflow 0x200 0) ∧
      look (fun t => (t.pc, t.sp.val))
        (runs 0x00EE (wrapStack { State.reset with stack := State.reset.stack.set 15 0x2AA })) = some (0x2AA, 15) := by
  decide

theorem test_jp : look (·.pc) (runs 0x1ABC State.reset) = some 0xABC := by decide

theorem test_call :
    look (fun t => (t.pc, t.sp.val, t.stack[0])) (runs 0x2300 State.reset) = some (0x300, 1, 0x202) := by decide

theorem test_call_full :
    look (·.status) (runs 0x2300 (atSp 16)) = some (.faulted .stackOverflow 0x200 16) ∧
      look (fun t => (t.pc, t.sp.val, t.stack[15])) (runs 0x2300 (wrapStack (atSp 15))) = some (0x300, 0, 0x202) := by
  decide

theorem test_se_immediate :
    look (·.pc) (runs 0x3342 (regs [(3, 0x42)])) = some 0x204 ∧
      look (·.pc) (runs 0x3342 (regs [(3, 0x41)])) = some 0x202 := by decide

theorem test_sne_immediate :
    look (·.pc) (runs 0x4342 (regs [(3, 0x41)])) = some 0x204 ∧
      look (·.pc) (runs 0x4342 (regs [(3, 0x42)])) = some 0x202 := by decide

theorem test_se_register :
    look (·.pc) (runs 0x512F (regs [(1, 7), (2, 7)])) = some 0x204 ∧
      look (·.pc) (runs 0x5120 (regs [(1, 7), (2, 8)])) = some 0x202 := by decide

theorem test_sne_register :
    look (·.pc) (runs 0x9120 (regs [(1, 7), (2, 8)])) = some 0x204 ∧
      look (·.pc) (runs 0x9110 (regs [(1, 7)])) = some 0x202 := by decide

theorem test_jp_v0 :
    look (·.pc) (runs 0xB300 (regs [(0, 4)])) = some 0x304 ∧
      look (·.pc) (runs 0xBFFF (regs [(0, 0xFF)])) = some 0x10FE := by decide

theorem test_fetch_faults :
    look (·.status) (cpuStep { State.reset with pc := 0x201 }) = some (.faulted .invalidAddress 0x201 0x201) ∧
      look (·.status) (cpuStep { State.reset with pc := 0x1000 }) = some (.faulted .memoryOutOfRange 0x1000 0x1000) ∧
      look (·.pc) (runs 0x1200 { State.reset with pc := 0xFFE }) = some 0x200 := by decide

/-! ### ALU (A.1 to A.44) -/

theorem test_ld_immediate : look (fun t => (t.getV 10, t.pc)) (runs 0x6A2F State.reset) = some (0x2F, 0x202) := by
  decide

theorem test_add_immediate :
    look (fun t => (t.getV 0, t.getV 15)) (runs 0x7001 (regs [(0, 0xFF), (15, 0x55)])) = some (0x00, 0x55) := by
  decide

theorem test_ld_register : look (·.getV 1) (runs 0x8120 (regs [(2, 0x80)])) = some 0x80 := by decide

theorem test_or :
    look (fun t => (t.getV 1, t.getV 15)) (runs 0x8121 (regs [(1, 0x0F), (2, 0xF0), (15, 0x77)])) =
      some (0xFF, 0x77) := by decide

theorem test_and : look (·.getV 1) (runs 0x8122 (regs [(1, 0x3C), (2, 0x0F)])) = some 0x0C := by decide

theorem test_xor :
    look (·.getV 1) (runs 0x8123 (regs [(1, 0xFF), (2, 0x0F)])) = some 0xF0 ∧
      look (·.getV 1) (runs 0x8113 (regs [(1, 0xAB)])) = some 0x00 := by decide

theorem test_add :
    look (fun t => (t.getV 1, t.getV 15)) (runs 0x8124 (regs [(1, 0xFF), (2, 0x01)])) = some (0x00, 1) ∧
      look (fun t => (t.getV 1, t.getV 15)) (runs 0x8124 (regs [(1, 0x10), (2, 0x20)])) = some (0x30, 0) := by decide

theorem test_add_flag_operand :
    look (·.getV 15) (runs 0x8F14 (regs [(15, 0x80), (1, 0x90)])) = some 1 ∧
      look (fun t => (t.getV 1, t.getV 15)) (runs 0x81F4 (regs [(15, 0x01), (1, 0xFF)])) = some (0x00, 1) := by decide

theorem test_sub :
    look (fun t => (t.getV 1, t.getV 15)) (runs 0x8125 (regs [(1, 5), (2, 10)])) = some (0xFB, 0) ∧
      look (fun t => (t.getV 1, t.getV 15)) (runs 0x8125 (regs [(1, 7), (2, 7)])) = some (0, 1) := by decide

theorem test_sub_flag_operand :
    look (·.getV 15) (runs 0x8F25 (regs [(15, 10), (2, 3)])) = some 0xFE ∧
      look (·.getV 15) (runs 0x8F25 (flagLast (regs [(15, 10), (2, 3)]))) = some 1 ∧
      look (·.getV 1) (runs 0x81F5 (regs [(1, 10), (15, 3)])) = some 9 ∧
      look (·.getV 1) (runs 0x81F5 (flagLast (regs [(1, 10), (15, 3)]))) = some 7 := by decide

theorem test_shr :
    look (fun t => (t.getV 1, t.getV 15)) (runs 0x81A6 (regs [(1, 0x04), (10, 0xFF)])) = some (0x02, 0) ∧
      look (fun t => (t.getV 1, t.getV 15)) (runs 0x8106 (regs [(1, 0x05)])) = some (0x02, 1) := by decide

theorem test_shr_flag_operand :
    look (·.getV 15) (runs 0x8F06 (regs [(15, 0x03)])) = some 0x00 ∧
      look (·.getV 15) (runs 0x8F06 (flagLast (regs [(15, 0x03)]))) = some 0x01 := by decide

theorem test_subn :
    look (fun t => (t.getV 1, t.getV 15)) (runs 0x8127 (regs [(1, 5), (2, 10)])) = some (5, 1) ∧
      look (fun t => (t.getV 1, t.getV 15)) (runs 0x8127 (regs [(1, 10), (2, 5)])) = some (0xFB, 0) := by decide

theorem test_subn_flag_operand :
    look (·.getV 15) (runs 0x8F27 (regs [(15, 3), (2, 10)])) = some 0x09 ∧
      look (·.getV 15) (runs 0x8F27 (flagLast (regs [(15, 3), (2, 10)]))) = some 1 ∧
      look (·.getV 1) (runs 0x81F7 (regs [(1, 3), (15, 10)])) = some 0xFE ∧
      look (·.getV 1) (runs 0x81F7 (flagLast (regs [(1, 3), (15, 10)]))) = some 0x07 := by decide

theorem test_shl :
    look (fun t => (t.getV 1, t.getV 15)) (runs 0x810E (regs [(1, 0x81)])) = some (0x02, 1) := by decide

theorem test_shl_flag_operand :
    look (·.getV 15) (runs 0x8F0E (regs [(15, 0x81)])) = some 0x02 ∧
      look (·.getV 15) (runs 0x8F0E (flagLast (regs [(15, 0x81)]))) = some 0x01 := by decide

theorem test_rnd :
    look (·.getV 2) (runs 0xC20F { State.reset with rnd := 0xA7 }) = some 0x07 ∧
      look (·.getV 2) (runs 0xC200 { State.reset with rnd := 0xA7 }) = some 0x00 := by decide

theorem test_unknown :
    look (·.status) (runs 0x8128 State.reset) = some (.faulted .unknownOpcode 0x200 0x8128) ∧
      look (fun t => (t.pc, t.status)) (runs 0x8128 (nopUnknown State.reset)) = some (0x202, .running) := by decide

/-! ### Display (D.1 to D.14) -/

theorem test_cls : look (fun t => (t.disp.pixel 63 31, t.pc)) (runs 0x00E0 (lit 63 31)) = some (false, 0x202) := by
  decide

theorem test_drw_collision :
    look (fun t => ([t.disp.pixel 0 0, t.disp.pixel 1 0, t.disp.pixel 3 0, t.disp.pixel 4 0], t.getV 15))
      (runs 0xD011 { lit 1 0 with i := 0x050 }) = some ([true, false, true, false], 1) := by decide

theorem test_drw_edges :
    look (fun t => ([t.disp.pixel 63 0, t.disp.pixel 0 0], t.getV 15)) (runs 0xD011 { regs [(0, 62)] with i := 0x050 })
        = some ([true, false], 0) ∧
      look (fun t => [t.disp.pixel 63 0, t.disp.pixel 0 0, t.disp.pixel 1 0, t.disp.pixel 2 0])
        (runs 0xD011 (wrapEdge { regs [(0, 62)] with i := 0x050 })) = some [true, true, true, false] ∧
      look (fun t => (t.disp.pixel 0 0, t.status)) (runs 0xD012 { lit 0 0 with i := 0xFFF }) =
        some (true, .faulted .memoryOutOfRange 0x200 0x1000) := by decide

/-! ### Timers and keys (T.1 to T.15) -/

theorem test_skp :
    look (·.pc) (runs 0xE59E ((held [10]).setV 5 0xA)) = some 0x204 ∧
      look (·.pc) (runs 0xE59E ((held []).setV 5 0xA)) = some 0x202 := by decide

theorem test_skp_index :
    look (·.status) (runs 0xE59E ((held [10]).setV 5 0x1A)) = some (.faulted .invalidKeyIndex 0x200 0x1A) ∧
      look (·.pc) (runs 0xE59E (lowNibble ((held [10]).setV 5 0x1A))) = some 0x204 := by decide

theorem test_sknp :
    look (·.pc) (runs 0xE5A1 ((held []).setV 5 0xA)) = some 0x204 ∧
      look (·.pc) (runs 0xE5A1 ((held [10]).setV 5 0xA)) = some 0x202 := by decide

theorem test_ld_from_dt : look (·.getV 3) (runs 0xF307 { State.reset with dt := 0x3C }) = some 0x3C := by decide

theorem test_ld_key_waits :
    look (fun t => (t.pc, t.getV 2)) (runs 0xF20A (regs [(2, 0x99)])) = some (0x200, 0x99) := by decide

theorem test_ld_key_lowest : look (fun t => (t.getV 2, t.pc)) (runs 0xF20A (held [9, 7])) = some (7, 0x202) := by
  decide

theorem test_ld_dt : look (·.dt) (runs 0xF415 (regs [(4, 5)])) = some 5 := by decide

theorem test_ld_st : look (·.st) (runs 0xF418 (regs [(4, 2)])) = some 2 := by decide

theorem test_tick_follows_step :
    look (·.dt) (((regs [(4, 5)]).placeWord 0xF415).iterate State.reset.keys true 0) = some 4 := by decide

theorem test_no_tick_after_fault :
    look (·.dt) (({ State.reset with dt := 3 }.placeWord 0x00EE).iterate State.reset.keys true 0) = some 3 := by decide

theorem test_tick_stops_at_zero : tickDown 1 = 0 ∧ tickDown 0 = 0 := by decide

/-! ### Index and memory (M.1 to M.16) -/

theorem test_ld_i : look (·.i) (runs 0xA300 State.reset) = some 0x300 := by decide

theorem test_add_i :
    look (fun t => (t.i, t.getV 15)) (runs 0xF21E { regs [(2, 1)] with i := 0xFFF }) = some (0x1000, 0) ∧
      look (·.i) (runs 0xF21E { regs [(2, 1)] with i := 0xFFFF }) = some 0x0000 := by decide

theorem test_ld_f :
    look (·.i) (runs 0xF329 (regs [(3, 0x0A)])) = some 0x082 ∧
      look (·.i) (runs 0xF329 (regs [(3, 0xFF)])) = some 0x54B := by decide

theorem test_bcd :
    look (fun t => ([t.mem.read 0x300, t.mem.read 0x301, t.mem.read 0x302], t.i))
      (runs 0xF033 { regs [(0, 129)] with i := 0x300 }) = some ([1, 2, 9], 0x300) := by decide

theorem test_bcd_faults :
    look (fun t => (t.mem.read 0x200, t.status)) (runs 0xF033 { regs [(0, 129)] with i := 0x1FF }) =
        some (0xF0, .faulted .protectedWrite 0x200 0x1FF) ∧
      look (fun t => (t.mem.read 0xFFE, t.status)) (runs 0xF033 { regs [(0, 129)] with i := 0xFFE }) =
        some (0, .faulted .memoryOutOfRange 0x200 0x1000) ∧
      look (fun t => [t.mem.read 0x1FF, t.mem.read 0x200, t.mem.read 0x201])
        (runs 0xF033 (allowLow { regs [(0, 129)] with i := 0x1FF })) = some [1, 2, 9] := by decide

theorem test_dump :
    look (fun t => ([t.mem.read 0x300, t.mem.read 0x301, t.mem.read 0x302], t.i))
      (runs 0xF155 { regs [(0, 1), (1, 2), (2, 3)] with i := 0x300 }) = some ([1, 2, 0], 0x300) := by decide

theorem test_dump_faults :
    look (fun t => (t.mem.read 0xFFE, t.status)) (runs 0xF355 { regs [(0, 7)] with i := 0xFFE }) =
        some (0, .faulted .memoryOutOfRange 0x200 0x1000) ∧
      look (·.status) (runs 0xF055 { regs [(0, 1)] with i := 0x100 }) =
        some (.faulted .protectedWrite 0x200 0x100) := by decide

theorem test_load :
    look (fun t => ([t.getV 0, t.getV 1, t.getV 2, t.getV 3], t.i))
        (runs 0xF265 { atI 0x300 with mem := Memory.place [] 0x300 [1, 2, 9, 4] }) = some ([1, 2, 9, 0], 0x300) ∧
      look (·.getV 0) (runs 0xF065 (atI 0x055)) = some 0x20 := by decide

theorem test_load_fault :
    look (fun t => (t.getV 0, t.status)) (runs 0xF165 { regs [(0, 7)] with i := 0xFFF }) =
      some (7, .faulted .memoryOutOfRange 0x200 0x1000) := by decide

/-! ### Reset and the step (R.2, R.3, P6) -/

theorem test_reset_memory : State.reset.mem.wf = true ∧ State.reset.mem.read 0x050 = 0xF0 := by decide

theorem test_write_canonical :
    (State.reset.mem.write 0x300 5).wf = true ∧ (State.reset.mem.write 0x300 5).write 0x300 0 = State.reset.mem := by
  decide

theorem test_empty_rom : look (·.status) (step State.reset) = some (.faulted .unknownOpcode 0x200 0) := by decide

theorem test_fetch_word : look (·.pc) (step (State.reset.withFetchWord 16 0x1ABC)) = some 0xABC := by decide

theorem test_quit : look (·.status) (step { State.reset with events := [.quit] }) = some .terminated := by decide

/-! ### Witnesses: control transfer -/

/-- A word of each of the 34 rows meets the hypothesis of `Decodes`, with ignored and operand bits set. -/
theorem witness_Decodes :
    (0x0FE0 &&& 0xF0FF : Word) = 0x00E0 ∧ (0x0FEE &&& 0xF0FF : Word) = 0x00EE ∧
      (0x1FFF &&& 0xF000 : Word) = 0x1000 ∧ (0x8FF6 &&& 0xF00F : Word) = 0x8006 ∧
      (0x5FFF &&& 0xF000 : Word) = 0x5000 ∧ (0xEFA1 &&& 0xF0FF : Word) = 0xE0A1 ∧
      (0xFF65 &&& 0xF0FF : Word) = 0xF065 ∧ (∀ i ∈ formSamples, encode i &&& i.row.mask = i.row.pattern) := by
  decide

theorem witness_RetPopsIntoPc :
    ((atSp 0).policy.stack = .fault ∧ (atSp 0).sp.val = 0) ∧
      ((atSp 1).policy.stack = .fault ∧ 0 < (atSp 1).sp.val ∧ (0 : Fin 16).val = (atSp 1).sp.val - 1) ∧
      ((atSp 16).policy.stack = .fault ∧ 0 < (atSp 16).sp.val ∧ (15 : Fin 16).val = (atSp 16).sp.val - 1) ∧
      ((wrapStack (atSp 0)).policy.stack = .wrap ∧ (15 : Fin 16).val = ((wrapStack (atSp 0)).sp.val + 15) % 16) := by
  decide

theorem witness_CallPushesReturnAddress :
    ((atSp 16).policy.stack = .fault ∧ (atSp 16).sp.val = 16) ∧
      ((atSp 15).policy.stack = .fault ∧ (atSp 15).sp.val < 16 ∧ (15 : Fin 16).val = (atSp 15).sp.val) ∧
      ((atSp 0).policy.stack = .fault ∧ (atSp 0).sp.val < 16 ∧ (0 : Fin 16).val = (atSp 0).sp.val) ∧
      ((wrapStack (atSp 15)).policy.stack = .wrap ∧ (15 : Fin 16).val = (wrapStack (atSp 15)).sp.val % 16) := by
  decide

theorem witness_CallThenReturn :
    (atSp 15).sp.val ≤ 15 ∧
      ∃ t, exec (.callNnn 0x300) (atSp 15) = .next t ∧
        ∃ u : State, u.policy = t.policy ∧ u.sp = t.sp ∧ u.stack = t.stack ∧ u.pc ≠ t.pc :=
  ⟨by decide, _, rfl, { atSp 16 with pc := 0x400, stack := State.reset.stack.set 15 0x202 }, by decide, by decide,
    by decide, by decide⟩

/-! ### Witnesses: ALU -/

theorem witness_LogicBitwise : 7 < 8 := by decide

theorem witness_AddSetsCarry :
    (1 : Reg) ≠ 15 ∧ ((regs [(1, 0xFF), (2, 1)]).getV 1).toNat + ((regs [(1, 0xFF), (2, 1)]).getV 2).toNat > 255 ∧
      ¬ ((regs [(1, 0xFF)]).getV 1).toNat + ((regs [(1, 0xFF)]).getV 2).toNat > 255 := by decide

/-- Each clause of SUB and SUBN, by the pair of registers and the mode. -/
theorem witness_SubSetsNoBorrow :
    ((1 : Reg) ≠ 15 ∧ (2 : Reg) ≠ 15) ∧ State.reset.policy.aliasing = .sequential ∧
      (flagLast State.reset).policy.aliasing = .flagLast ∧ (15 : Reg) = 15 ∧
      10 = ((regs [(1, 10), (15, 3)]).getV 1).toNat ∧ 3 = ((regs [(1, 10), (15, 3)]).getV 15).toNat := by decide

theorem witness_SubnSetsNoBorrow :
    ((1 : Reg) ≠ 15 ∧ (2 : Reg) ≠ 15) ∧ State.reset.policy.aliasing = .sequential ∧
      (flagLast State.reset).policy.aliasing = .flagLast ∧ (15 : Reg) = 15 ∧
      3 = ((regs [(1, 3), (15, 10)]).getV 1).toNat ∧ 10 = ((regs [(1, 3), (15, 10)]).getV 15).toNat := by decide

theorem witness_ShrShiftsOutLowBit :
    (1 : Reg) ≠ 15 ∧ (State.reset.policy.aliasing = .sequential ∧ (15 : Reg) = 15) ∧
      (flagLast State.reset).policy.aliasing = .flagLast := by decide

theorem witness_ShlShiftsOutHighBit :
    (14 : Reg) ≠ 15 ∧ (State.reset.policy.aliasing = .sequential ∧ (15 : Reg) = 15) ∧
      (flagLast State.reset).policy.aliasing = .flagLast := by decide

theorem witness_RndMasksTheDraw :
    (State.reset.placeWord 0xC20F).fetch = .ok 0xC20F ∧ decodeWord 0xC20F = .ok (.rndVxKk 2 0x0F) := by decide

/-! ### Witnesses: display -/

theorem witness_DrwXorsTheSprite_bytes :
    (∀ r < (5 : Fin 16).val, (atI 0x050).i.toNat + r ≤ 0xFFF) ∧
      (∀ r < (15 : Fin 16).val, (atI 0xFF1).i.toNat + r ≤ 0xFFF) ∧
      (∀ r < (0 : Fin 16).val, (atI 0xFFFF).i.toNat + r ≤ 0xFFF) ∧
      (1 < (2 : Fin 16).val ∧ 0xFFF < (atI 0xFFF).i.toNat + 1 ∧ ∀ j < 1, (atI 0xFFF).i.toNat + j ≤ 0xFFF) := by
  decide

/-- A sprite bit on a lit cell, at the grid's last column under CLIP, and on column 0 under WRAP. -/
theorem witness_DrwXorsTheSprite_hits :
    (SpriteHits { lit 0 0 with i := 0x050 } 0 1 5 0 0 ∧ (lit 0 0).disp.pixel 0 0 = true) ∧
      SpriteHits { regs [(0, 62)] with i := 0x050 } 0 1 5 63 0 ∧
      SpriteHits (wrapEdge { regs [(0, 62)] with i := 0x050 }) 0 1 5 0 0 :=
  ⟨⟨⟨0, 0, by decide, by decide, rfl, rfl, rfl⟩, by decide⟩, ⟨0, 1, by decide, by decide, rfl, rfl, rfl⟩,
    ⟨0, 2, by decide, by decide, rfl, rfl, rfl⟩⟩

/-- The same sprite misses column 0 under CLIP, and a 0-row sprite misses every cell. -/
theorem witness_DrwXorsTheSprite_misses :
    ¬ SpriteHits { regs [(0, 62)] with i := 0x050 } 0 1 5 0 0 ∧
      ¬ ∃ px py, SpriteHits (atI 0x050) 0 1 0 px py ∧ (atI 0x050).disp.pixel px py = true := by
  refine ⟨?_, ?_⟩
  · rintro ⟨r, c, _, _, _, h, _⟩
    have h0 : ((regs [(0, 62)]).getV 0).toNat = 62 := by decide
    change ((regs [(0, 62)]).getV 0).toNat % 64 + c = 0 at h
    omega
  · rintro ⟨_, _, ⟨r, _, h, _⟩, _⟩
    exact absurd h (Nat.not_lt_zero r)

theorem witness_DrwTwiceRestores :
    (∀ r < (5 : Fin 16).val, (atI 0x050).i.toNat + r ≤ 0xFFF) ∧ (0 : Reg) ≠ 15 ∧ (14 : Reg) ≠ 15 ∧
      ∀ px py, (atI 0x050).disp.pixel px py = false :=
  ⟨by decide, by decide, by decide, fun px py => by simp [atI, State.reset, Display.pixel]⟩

/-! ### Witnesses: keys, timers and the iteration -/

theorem witness_KeySkips :
    (((held [15]).setV 5 0xF).getV 5).toNat ≤ 15 ∧ (15 : Fin 16).val = (((held [15]).setV 5 0xF).getV 5).toNat % 16 ∧
      (lowNibble (regs [(5, 0x10)])).policy.keyIndex = .lowNibble ∧
      (0 : Fin 16).val = ((lowNibble (regs [(5, 0x10)])).getV 5).toNat % 16 ∧
      (15 < ((regs [(5, 0x10)]).getV 5).toNat ∧ (regs [(5, 0x10)]).policy.keyIndex = .fault) := by decide

theorem witness_KeyWait :
    (∀ k : Fin 16, State.reset.keys[k] = false) ∧
      ((held [9, 7]).keys[(7 : Fin 16)] = true ∧ ∀ j : Fin 16, j < 7 → (held [9, 7]).keys[j] = false) ∧
      ((held [15]).keys[(15 : Fin 16)] = true ∧ ∀ j : Fin 16, j < 15 → (held [15]).keys[j] = false) := by decide

theorem witness_TickDecrementsBoth :
    (State.reset.status = .running ∧ true = true) ∧ (State.reset.quit.status ≠ .running ∨ true = false) ∧
      (State.reset.status ≠ .running ∨ false = false) := by decide

theorem witness_IterationOrder :
    (∃ u, cpuStep { State.reset.placeWord 0x6A2F with keys := State.reset.keys, rnd := 0 } = .next u ∧
        u.status = .running ∧ true = true) ∧
      ∃ u, cpuStep { State.reset with keys := State.reset.keys, rnd := 0 } = .next u ∧
        ¬ (u.status = .running ∧ true = true) :=
  ⟨⟨_, rfl, by decide, rfl⟩, ⟨_, rfl, by decide⟩⟩

theorem witness_TimersNeverRise :
    (∃ t, ((regs []).placeWord 0x6A2F).iterate State.reset.keys true 0 = .next t) ∧
      (∀ w x, ((regs []).placeWord 0x6A2F).fetch = .ok w → decodeWord w ≠ .ok (.ldDtVx x)) ∧
      ∀ w x, ((regs []).placeWord 0x6A2F).fetch = .ok w → decodeWord w ≠ .ok (.ldStVx x) := by
  have hf : ((regs []).placeWord 0x6A2F).fetch = .ok 0x6A2F := by decide
  have hd : decodeWord 0x6A2F = .ok (.ldVxKk 10 0x2F) := by decide
  refine ⟨⟨_, rfl⟩, fun w x h => ?_, fun w x h => ?_⟩ <;>
  · rw [hf] at h
    cases h
    rw [hd]
    simp

theorem witness_FairTicksReachZero :
    WeaklyFair (fun n => n % 2 == 1) ∧ ({ State.reset with dt := 255, st := 255 } : State).status = .running :=
  ⟨fun n => ⟨2 * n + 1, by omega, by simp⟩, rfl⟩

/-! ### Witnesses: memory -/

/-- The last block that fits, the first byte of the program, and the last byte of the reserved space; each
fault at the lowest failing address. -/
theorem witness_BcdStore :
    (∀ k < 3, (atI 0xFFD).Writable ((atI 0xFFD).i.toNat + k)) ∧
      (∀ k < 3, (atI 0x200).Writable ((atI 0x200).i.toNat + k)) ∧
      (∀ k < 3, (allowLow (atI 0x1FF)).Writable ((allowLow (atI 0x1FF)).i.toNat + k)) ∧
      (¬ (atI 0xFFE).Writable ((atI 0xFFE).i.toNat + 2) ∧ ∀ j < 2, (atI 0xFFE).Writable ((atI 0xFFE).i.toNat + j)) ∧
      (¬ (atI 0x1FF).Writable ((atI 0x1FF).i.toNat + 0) ∧
        ∀ j < 0, (atI 0x1FF).Writable ((atI 0x1FF).i.toNat + j)) := by
  unfold State.Writable; decide

theorem witness_RegisterDump :
    (∀ k ≤ (15 : Reg).val, (atI 0xFF0).Writable ((atI 0xFF0).i.toNat + k)) ∧ (15 : Reg) ≤ 15 ∧
      (1 ≤ (1 : Reg).val ∧ ¬ (atI 0xFFF).Writable ((atI 0xFFF).i.toNat + 1) ∧
        ∀ j < 1, (atI 0xFFF).Writable ((atI 0xFFF).i.toNat + j)) ∧
      (0 ≤ (0 : Reg).val ∧ ¬ (atI 0x100).Writable ((atI 0x100).i.toNat + 0) ∧
        ∀ j < 0, (atI 0x100).Writable ((atI 0x100).i.toNat + j)) := by
  unfold State.Writable; decide

theorem witness_RegisterLoad :
    (atI 0xFF0).i.toNat + (15 : Reg).val ≤ 0xFFF ∧ (0 : Reg) ≤ 15 ∧
      (1 ≤ (1 : Reg).val ∧ 0xFFF < (atI 0xFFF).i.toNat + 1 ∧ ∀ j < 1, (atI 0xFFF).i.toNat + j ≤ 0xFFF) := by decide

theorem witness_DumpThenLoad :
    (∀ k ≤ (1 : Reg).val, (atI 0x300).Writable ((atI 0x300).i.toNat + k)) ∧
      ∃ t, exec (.ldMemVx 1) (atI 0x300) = .next t ∧
        ∃ u : State, u.i = (atI 0x300).i ∧ u.getV 0 ≠ (atI 0x300).getV 0 ∧
          ∀ k ≤ (1 : Reg).val, u.mem.read ((atI 0x300).i.toNat + k) = t.mem.read ((atI 0x300).i.toNat + k) :=
  ⟨by unfold State.Writable; decide, _, rfl, (atI 0x300).setV 0 7, by decide, by decide, by decide⟩

theorem witness_IndexChangedOnlyByThree :
    (∃ t, exec .cls State.reset = .next t) ∧ (∀ nnn, Instr.cls ≠ .ldINnn nnn) ∧ (∀ x, Instr.cls ≠ .addIVx x) ∧
      ∀ x, Instr.cls ≠ .ldFVx x :=
  ⟨⟨_, rfl⟩, by simp, by simp, by simp⟩

theorem witness_ByteAccessChecks :
    (0xFFF < 0x1000 ∧ 0xFFF ≤ 0xFFF) ∧ (0x1FF < 0x200 ∧ State.reset.policy.lowWrite = .fault) ∧
      (0x200 ≤ 0xFFF ∧ (0x200 ≤ 0x200 ∨ State.reset.policy.lowWrite = .allow)) ∧
      (0x1FF ≤ 0xFFF ∧ (0x200 ≤ 0x1FF ∨ (allowLow State.reset).policy.lowWrite = .allow)) := by decide

theorem witness_StoreSeenByFetch :
    (∃ t, State.reset.memWrite 0x200 5 = .ok t) ∧ (∃ t, State.reset.memWrite 0x201 5 = .ok t) ∧
      State.reset.pc.toNat % 2 = 0 ∧ State.reset.pc.toNat ≤ 0xFFE :=
  ⟨⟨_, rfl⟩, ⟨_, rfl⟩, by decide, by decide⟩

theorem witness_LowMemoryAndParametersKept :
    (∃ t, step State.reset = .next t) ∧ State.reset.policy.lowWrite = .fault ∧ 0x1FF < 0x200 :=
  ⟨⟨_, rfl⟩, by decide, by decide⟩

theorem witness_DevicesReachedOnlyByTheirForms :
    (∃ t, exec (.ldINnn 0x300) State.reset = .next t) ∧
      (Instr.ldINnn 0x300 ≠ .cls ∧ ∀ x y n, Instr.ldINnn 0x300 ≠ .drwVxVyN x y n) ∧
      ((∀ x, Instr.ldINnn 0x300 ≠ .skpVx x) ∧ (∀ x, Instr.ldINnn 0x300 ≠ .sknpVx x) ∧
        ∀ x, Instr.ldINnn 0x300 ≠ .ldVxK x) ∧
      ((∀ x, Instr.ldINnn 0x300 ≠ .ldVxDt x) ∧ ∀ x, Instr.ldINnn 0x300 ≠ .ldDtVx x) ∧
      ∀ x, Instr.ldINnn 0x300 ≠ .ldStVx x :=
  ⟨⟨_, rfl⟩, by simp, by simp, by simp, by simp⟩

/-! ### Witnesses: encoding -/

theorem witness_DecodeEncodeRoundTrip :
    (Instr.drwVxVyN 15 15 15).WellFormed ∧ (Instr.jpNnn 0xFFF).WellFormed ∧ (Instr.ldVxKk 15 0xFF).WellFormed := by
  decide

theorem witness_OpcodeMapExclusive :
    Instr.row .cls ∈ opcodeTable ∧ (Instr.row .cls).admits 0x05E0 = true ∧ decodeWord 0x05E0 = .ok .cls := by decide

/-! ### Witnesses: the step, faults and the run -/

theorem witness_UnknownWordExecution :
    (State.reset.placeWord 0x8128).fetch = .ok 0x8128 ∧ decodeWord 0x8128 = .error (.unknownOpcode 0x8128) ∧
      (State.reset.placeWord 0x8128).policy.unknown = .fault ∧
      ((nopUnknown State.reset).placeWord 0x8128).fetch = .ok 0x8128 ∧
      ((nopUnknown State.reset).placeWord 0x8128).policy.unknown = .nop := by decide

/-- The last address a word can be fetched from, with a listed event and without one. -/
theorem witness_StepRunsDecodedInstruction :
    ∃ s : State, s.status = .running ∧ s.pc.toNat % 2 = 0 ∧ s.pc.toNat ≤ 0xFFE ∧
      (0x6A2F : Word).toNat = (s.mem.read s.pc.toNat).toNat * 256 + (s.mem.read (s.pc.toNat + 1)).toNat ∧
      (Instr.ldVxKk 10 0x2F).WellFormed ∧ decodeWord 0x6A2F = .ok (.ldVxKk 10 0x2F) ∧ s.events = [] ∧
      (∃ u, exec (.ldVxKk 10 0x2F)
        { s with draws := s.draws + 1, keys := Config.freeKeys s.draws, rnd := Config.freeRnd s.draws } = .next u) ∧
      ∃ e : State, e = { s with events := [.iteration State.reset.keys true 0] } ∧
        ∃ u, exec (.ldVxKk 10 0x2F) { e with events := [], keys := State.reset.keys, rnd := 0 } = .next u :=
  ⟨{ State.reset with pc := 0xFFE }.placeWord 0x6A2F, by decide, by decide, by decide, by decide, by decide, by decide,
    by decide, ⟨_, rfl⟩, _, rfl, _, rfl⟩

theorem witness_OddPcFaultsAtFetch :
    ({ State.reset with pc := 0x201 } : State).pc.toNat % 2 = 1 ∧
      State.reset.StackAligned ∧ State.reset.pc.toNat % 2 = 0 ∧
      ∃ t, exec (.jpNnn 0x201) State.reset = .next t ∧ t.pc.toNat % 2 = 1 :=
  ⟨by decide, by unfold State.StackAligned; decide, by decide, _, rfl, by decide⟩

theorem witness_FetchBeyondMemoryFaults :
    ({ State.reset with pc := 0x1000 } : State).pc.toNat % 2 = 0 ∧
      0xFFE < ({ State.reset with pc := 0x1000 } : State).pc.toNat := by decide

theorem witness_FaultsArePrecise :
    State.reset.status = .running ∧
      ∃ t, (State.reset.placeWord 0x00EE).iterate State.reset.keys true 0 = .next t ∧ t.status ≠ .running :=
  ⟨by decide, _, rfl, by decide⟩

theorem witness_OnlyListedFaults :
    State.reset.status = .running ∧ ∃ t, exec .ret State.reset = .next t ∧ t.status ≠ .running :=
  ⟨by decide, _, rfl, by decide⟩

theorem witness_StoppedMachineStays :
    (State.reset.raise ⟨.stackUnderflow, 0⟩).status = .faulted .stackUnderflow 0x200 0 ∧
      State.reset.quit.status = .terminated := by decide

theorem witness_QuitTerminates :
    ({ State.reset with events := [.quit] } : State).status = .running ∧
      ({ State.reset with events := [.quit] } : State).events = .quit :: [] := by decide

theorem witness_ResetValues : ¬ (0x050 ≤ 0x04F ∧ 0x04F ≤ 0x09F) ∧ ¬ (0x050 ≤ 0x0A0 ∧ 0x0A0 ≤ 0x09F) := by decide

theorem witness_RomLoadContract :
    3584 < (List.replicate 3585 (0 : Byte)).length ∧ (List.replicate 3584 (0 : Byte)).length ≤ 3584 ∧
      3583 < (List.replicate 3584 (0 : Byte)).length ∧ ([] : List Byte).length ≤ 3584 := by
  simp only [List.length_replicate, List.length_nil]; decide

theorem witness_StepKeepsInvariant : State.reset.Inv ∧ ∃ t, step State.reset = .next t :=
  ⟨⟨by decide, by unfold State.StackAligned; decide, by unfold State.PcBounded; decide,
    by unfold State.DepthLegal; decide⟩, _, rfl⟩

theorem witness_ParkedStaysParked : (State.reset.placeWord 0x1200).Parked 0x200 := by
  unfold State.Parked; decide

end Sys2Proof.Tests
end

section
/-! What one step of the machine can do, said once (R200, R603, R513): the step by STATUS, the turn by the
oldest host event, the iteration by its CPU step, the CPU step by fetch and decode. -/

namespace Sys2Proof.Machine

/-! ### The step by STATUS (R40) -/

theorem step_of_running {s : State} (h : s.status = .running) : step s = s.turn := by
  simp only [step, State.move, h]

theorem step_of_faulted {s : State} {code : FaultCode} {fpc : Word} {info : Nat}
    (h : s.status = .faulted code fpc info) : step s = .fault (.halted code fpc info) := by
  simp only [step, State.move, h]

theorem step_of_terminated {s : State} (h : s.status = .terminated) : step s = .fault .terminated := by
  simp only [step, State.move, h]

/-- Only a RUNNING machine answers a next state. -/
theorem status_of_step_next {s t : State} (h : step s = .next t) : s.status = .running := by
  cases hs : s.status with
  | running => rfl
  | faulted code fpc info => rw [step_of_faulted hs] at h; cases h
  | terminated => rw [step_of_terminated hs] at h; cases h

/-- All that a step that answers a next state can be: a listed iteration, a quit, or an iteration on the
free inputs. -/
theorem step_next_cases {s t : State} (h : step s = .next t) :
    (∃ keysIn tick rnd rest, s.events = .iteration keysIn tick rnd :: rest ∧
        ({ s with events := rest } : State).iterate keysIn tick rnd = .next t) ∨
      (∃ rest, s.events = .quit :: rest ∧ t = ({ s with events := rest } : State).quit) ∨
      (s.events = [] ∧
        ({ s with draws := s.draws + 1 } : State).iterate (Config.freeKeys s.draws)
          (Config.freeTick s.draws) (Config.freeRnd s.draws) = .next t) := by
  rw [step_of_running (status_of_step_next h)] at h
  unfold State.turn at h
  split at h
  next keysIn tick rnd rest he => exact .inl ⟨keysIn, tick, rnd, rest, he, h⟩
  next rest he => cases h; exact .inr (.inl ⟨rest, he, rfl⟩)
  next he => exact .inr (.inr ⟨he, h⟩)

/-! ### The iteration (R603) and the CPU step (R200) -/

/-- An iteration answers exactly what its CPU step answers on the polled state, ticked. -/
theorem iterate_next_iff {s t : State} {keysIn : Keys} {tick : Bool} {rnd : Byte} :
    s.iterate keysIn tick rnd = .next t ↔
      ∃ u, cpuStep (s.poll keysIn rnd) = .next u ∧ t = u.tickIf tick := by
  unfold State.iterate
  cases cpuStep (s.poll keysIn rnd) with
  | next u => simp [eq_comm]
  | fault r => simp
  | refused r => simp

/-- The poll changes nothing the fetch reads. -/
@[simp] theorem State.poll_fetch (s : State) (keysIn : Keys) (rnd : Byte) :
    (s.poll keysIn rnd).fetch = s.fetch := rfl

/-- A word is fetched only at an even PC of at most 0xFFE (R201, R202). -/
theorem State.pc_of_fetch_ok {s : State} {w : Word} (h : s.fetch = .ok w) :
    s.pc.toNat % 2 = 0 ∧ s.pc.toNat ≤ 0xFFE := by
  rcases s.fetch_cases with ⟨_, e⟩ | ⟨_, _, e⟩ | ⟨heven, hle, _⟩
  · rw [e] at h; cases h
  · rw [e] at h; cases h
  · exact ⟨heven, hle⟩

/-- All that executing an unknown word can do (R506). -/
theorem execUnknown_cases (w : Word) (s : State) :
    (s.policy.unknown = .fault ∧ execUnknown w s = .next (s.raise ⟨.unknownOpcode, w.toNat⟩)) ∨
      (s.policy.unknown = .nop ∧ execUnknown w s = .next s.advance) := by
  unfold execUnknown
  cases s.policy.unknown with
  | fault => exact .inl ⟨rfl, rfl⟩
  | nop => exact .inr ⟨rfl, rfl⟩

/-- All that a CPU step can do: raise a fault, have the effect of the instruction fetched, or pass over an
unknown word. -/
theorem cpuStep_cases {s t : State} (h : cpuStep s = .next t) :
    (∃ trap, t = s.raise trap) ∨
      (∃ w i, s.fetch = .ok w ∧ decodeWord w = .ok i ∧ Effect i s t) ∨
      (∃ w r, s.fetch = .ok w ∧ decodeWord w = .error r ∧ s.policy.unknown = .nop ∧ t = s.advance) := by
  unfold cpuStep at h
  split at h
  next trap hf => cases h; exact .inl ⟨trap, rfl⟩
  next w hf =>
    split at h
    next i hd =>
      rcases exec_cases i s t h with ⟨c, n, ht, _⟩ | he
      · exact .inl ⟨⟨c, n⟩, ht⟩
      · exact .inr (.inl ⟨w, i, hf, hd, he⟩)
    next r hd =>
      rcases execUnknown_cases w s with ⟨_, e⟩ | ⟨hp, e⟩ <;> rw [e] at h <;> cases h
      · exact .inl ⟨_, rfl⟩
      · exact .inr (.inr ⟨w, r, hf, hd, hp, rfl⟩)

/-- Settles O52: the step looks at STATUS first. -/
theorem stoppedMachineStays : Obligations.StoppedMachineStays := by
  unfold Obligations.StoppedMachineStays
  exact fun s => ⟨fun _ _ _ h => step_of_faulted h, step_of_terminated⟩

end Sys2Proof.Machine
end

section
/-! The invariant (R32, R34, R201, R202, R207): what the parts of an iteration other than the instruction leave
of it, what an instruction's bounded effect keeps, and so what every step keeps. -/

namespace Sys2Proof.Machine

/-! ### What the invariant does not read -/

@[simp] theorem State.inv_raise (s : State) (trap : Trap) : (s.raise trap).Inv ↔ s.Inv := Iff.rfl

@[simp] theorem State.inv_poll (s : State) (keysIn : Keys) (rnd : Byte) :
    (s.poll keysIn rnd).Inv ↔ s.Inv := Iff.rfl

@[simp] theorem State.inv_tickIf (s : State) (tick : Bool) : (s.tickIf tick).Inv ↔ s.Inv := Iff.rfl

@[simp] theorem State.inv_quit (s : State) : s.quit.Inv ↔ s.Inv := Iff.rfl

@[simp] theorem State.inv_events (s : State) (es : List HostEvent) :
    ({ s with events := es } : State).Inv ↔ s.Inv := Iff.rfl

@[simp] theorem State.inv_draws (s : State) (n : Nat) : ({ s with draws := n } : State).Inv ↔ s.Inv := Iff.rfl

/-! ### The parts of the invariant under an instruction's effect -/

/-- Neither the fetch advance nor a skip wraps where an instruction can be fetched. -/
theorem pc_add_two_toNat {pc : Word} (h : pc.toNat ≤ 0x1000) : (pc + 2).toNat = pc.toNat + 2 := by
  bv_omega

/-- Bytes stored at writable addresses keep the canonical form. -/
theorem Memory.wf_place_of_writable {s : State} {a : Nat} {bs : List Byte} (h : s.mem.wf = true)
    (hw : ∀ k, k < bs.length → s.Writable (a + k)) : (s.mem.place a bs).wf = true := by
  cases bs with
  | nil => exact h
  | cons b bs =>
    obtain ⟨hlast, _⟩ := hw bs.length (by simp)
    exact Memory.wf_place h (by simp only [List.length_cons, memSize]; omega)

section
variable {i : Instr} {s t : State}

theorem Effect.mem_wf (he : Effect i s t) (h : s.mem.wf = true) : t.mem.wf = true := by
  rcases he.mem with e | ⟨a, bs, hw, e⟩ <;> rw [e]
  · exact h
  · exact Memory.wf_place_of_writable h hw

/-- The pushed address is the even one after an instruction that starts at 0xFFE at most. -/
theorem Effect.stackAligned (he : Effect i s t) (h : s.StackAligned) (heven : s.pc.toNat % 2 = 0)
    (hle : s.pc.toNat ≤ 0xFFE) : t.StackAligned := by
  intro k
  rcases he.stack k with e | e <;> rw [e]
  · exact h k
  · rw [pc_add_two_toNat (by omega)]; omega

theorem Effect.pcBounded (he : Effect i s t) (h : s.StackAligned) (hle : s.pc.toNat ≤ 0xFFE) :
    t.PcBounded := by
  unfold State.PcBounded
  have hadvance : (s.pc + 2).toNat = s.pc.toNat + 2 := pc_add_two_toNat (by omega)
  rcases he.pc with e | e | e | ⟨hjump, _⟩ | ⟨k, e⟩
  case inr.inr.inr.inl => exact hjump
  all_goals rw [e]
  · omega
  · rw [pc_add_two_toNat (by omega)]; omega
  · rw [BitVec.add_sub_cancel]; omega
  · have := (h k).2; omega

theorem Effect.depthLegal (he : Effect i s t) (h : s.DepthLegal) : t.DepthLegal := by
  obtain ⟨_, _, hpolicy, _⟩ := he.run
  intro hwrap
  rw [hpolicy] at hwrap
  rcases he.sp hwrap with e | hsp
  · rw [e]; exact h hwrap
  · exact hsp

/-- An instruction's effect keeps the invariant where the instruction could be fetched. -/
theorem Effect.inv (he : Effect i s t) (h : s.Inv) (heven : s.pc.toNat % 2 = 0)
    (hle : s.pc.toNat ≤ 0xFFE) : t.Inv := by
  obtain ⟨hmem, hstack, _, hdepth⟩ := h
  exact ⟨he.mem_wf hmem, he.stackAligned hstack heven hle, he.pcBounded hstack hle, he.depthLegal hdepth⟩

end

/-! ### The invariant along the step -/

theorem State.Inv.advance {s : State} (h : s.Inv) (hle : s.pc.toNat ≤ 0xFFE) : s.advance.Inv := by
  obtain ⟨hmem, hstack, _, hdepth⟩ := h
  refine ⟨hmem, hstack, ?_, hdepth⟩
  rw [State.PcBounded, State.advance_pc, pc_add_two_toNat (by omega)]
  omega

theorem cpuStep_keeps_inv {s t : State} (h : s.Inv) (hstep : cpuStep s = .next t) : t.Inv := by
  rcases cpuStep_cases hstep with ⟨trap, rfl⟩ | ⟨w, i, hf, _, he⟩ | ⟨w, r, hf, _, _, rfl⟩
  · simpa using h
  · obtain ⟨heven, hle⟩ := State.pc_of_fetch_ok hf
    exact he.inv h heven hle
  · exact h.advance (State.pc_of_fetch_ok hf).2

theorem iterate_keeps_inv {s t : State} {keysIn : Keys} {tick : Bool} {rnd : Byte} (h : s.Inv)
    (hit : s.iterate keysIn tick rnd = .next t) : t.Inv := by
  obtain ⟨u, hu, rfl⟩ := iterate_next_iff.mp hit
  rw [State.inv_tickIf]
  exact cpuStep_keeps_inv ((State.inv_poll s keysIn rnd).mpr h) hu

/-- Settles O57: by what a step can be, and for an iteration by the bounds of every instruction's effect. -/
theorem stepKeepsInvariant : Obligations.StepKeepsInvariant := by
  unfold Obligations.StepKeepsInvariant
  intro s t h hstep
  rcases step_next_cases hstep with ⟨_, _, _, rest, _, hit⟩ | ⟨rest, _, rfl⟩ | ⟨_, hit⟩
  · exact iterate_keeps_inv ((State.inv_events s rest).mpr h) hit
  · simpa using h
  · exact iterate_keeps_inv ((State.inv_draws s _).mpr h) hit

/-- Settles O56: each part of the invariant on the state of R42. -/
theorem resetMeetsInvariant : Obligations.ResetMeetsInvariant := by
  unfold Obligations.ResetMeetsInvariant
  have hstack : State.reset.StackAligned := fun k => by simp [State.reset]
  have hpc : State.reset.PcBounded := by unfold State.PcBounded; decide
  have hdepth : State.reset.DepthLegal := fun _ => Nat.zero_le 15
  exact ⟨State.reset_mem_wf, hstack, hpc, hdepth⟩

end Sys2Proof.Machine
end

section
/-! The timers over an iteration (R35, R348, R349), and the values after reset (R42, R90). -/

namespace Sys2Proof.Machine

/-- A byte that ticks or not does not rise and falls by at most 1 (R348). -/
theorem tickDown_if_bounds (b : Byte) (c : Bool) :
    (if c then tickDown b else b).toNat ≤ b.toNat ∧ b.toNat ≤ (if c then tickDown b else b).toNat + 1 := by
  cases c with
  | false => simp
  | true => simp only [if_true, tickDown_toNat]; omega

/-- In a CPU step each timer stays unless the instruction executed is its load. -/
theorem cpuStep_timers {s t : State} (h : cpuStep s = .next t) :
    (t.dt = s.dt ∨ ∃ w x, s.fetch = .ok w ∧ decodeWord w = .ok (.ldDtVx x)) ∧
      (t.st = s.st ∨ ∃ w x, s.fetch = .ok w ∧ decodeWord w = .ok (.ldStVx x)) := by
  rcases cpuStep_cases h with ⟨trap, rfl⟩ | ⟨w, i, hf, hd, he⟩ | ⟨_, _, _, _, _, rfl⟩
  · exact ⟨.inl rfl, .inl rfl⟩
  · exact ⟨he.dt.imp_right fun ⟨x, hi⟩ => ⟨w, x, hf, hi ▸ hd⟩,
      he.st.imp_right fun ⟨x, hi⟩ => ⟨w, x, hf, hi ▸ hd⟩⟩
  · exact ⟨.inl rfl, .inl rfl⟩

/-- Settles O26: the CPU step leaves a timer it does not load, and then the timer ticks at most once. -/
theorem timersNeverRise : Obligations.TimersNeverRise := by
  unfold Obligations.TimersNeverRise
  intro s t keysIn tick rnd hit
  obtain ⟨u, hu, rfl⟩ := iterate_next_iff.mp hit
  obtain ⟨hdt, hst⟩ := cpuStep_timers hu
  simp only [State.poll_fetch, State.poll_dt, State.poll_st] at hdt hst
  constructor
  · intro hno
    rcases hdt with e | ⟨w, x, hf, hd⟩
    · rw [State.tickIf_dt, e]; exact tickDown_if_bounds _ _
    · exact absurd hd (hno w x hf)
  · intro hno
    rcases hst with e | ⟨w, x, hf, hd⟩
    · rw [State.tickIf_st, e]; exact tickDown_if_bounds _ _
    · exact absurd hd (hno w x hf)

/-! ### The values after reset -/

@[simp] theorem State.reset_getV (r : Reg) : State.reset.getV r = 0 := by simp [State.getV, State.reset]

@[simp] theorem State.reset_stack_get (k : Fin 16) : State.reset.stack[k] = 0 := by simp [State.reset]

@[simp] theorem State.reset_keys_get (k : Fin 16) : State.reset.keys[k] = false := by simp [State.reset]

theorem standardGlyphs_length : standardGlyphs.length = 80 := rfl

/-- Outside the glyph region an unlisted address reads as 0 (R42, R90). -/
theorem Memory.initial_outside_glyphs {a : Nat} (h : ¬ (0x050 ≤ a ∧ a ≤ 0x09F)) : Memory.initial a = 0 := by
  unfold Memory.initial fontBase
  split
  · next hbase =>
    exact List.getD_eq_default _ _ (by rw [standardGlyphs_length]; omega)
  · rfl

/-- Inside it, the glyph bytes read in order (R90). -/
theorem Memory.initial_glyphs : ((List.range 80).map fun k => Memory.initial (0x050 + k)) = standardGlyphs := by
  decide

/-- Settles O54: memory reads as its initial contents, and the other fields are those `State.reset` names. -/
theorem resetValues : Obligations.ResetValues := by
  unfold Obligations.ResetValues
  exact ⟨State.reset_getV, rfl, rfl, rfl, State.reset_stack_get, rfl, rfl, Memory.initial_glyphs,
    fun _ => Memory.initial_outside_glyphs, Display.pixel_off, State.reset_keys_get, rfl⟩

end Sys2Proof.Machine
end

section
/-! One byte's access (R81, R82): when a write completes and with what state, and what a fetch after it reads. -/

namespace Sys2Proof.Machine

/-- A byte write completes exactly at a writable address, and then stores its byte. -/
theorem State.memWrite_ok_iff (s t : State) (a : Nat) (b : Byte) :
    s.memWrite a b = .ok t ↔ s.Writable a ∧ t = { s with mem := s.mem.write a b } := by
  rcases s.memWrite_cases a b with ⟨hw, e⟩ | ⟨hhigh, e⟩ | ⟨hlow, hfault, e⟩ <;> rw [e]
  · simp [hw, eq_comm]
  · have : ¬ s.Writable a := fun hw => absurd hw.1 (by omega)
    simp [this]
  · have : ¬ s.Writable a := fun hw => absurd (hw.2 hfault) (by omega)
    simp [this]

/-- Storing a byte changes no other byte and nothing else. -/
theorem onlyBytes_write (s : State) (a : Nat) (b : Byte) :
    OnlyBytes (· = a) s { s with mem := s.mem.write a b } :=
  ⟨fun _ _ => rfl, rfl, ⟨rfl, fun _ => rfl⟩, ⟨rfl, rfl⟩,
    fun c hc => (s.mem.read_write a b c).trans (if_neg hc), fun _ _ => rfl, rfl, rfl, rfl, rfl, rfl, rfl⟩

/-- The range check of R82 comes first. -/
theorem State.memWrite_outOfRange (s : State) {a : Nat} (b : Byte) (h : 0xFFF < a) :
    s.memWrite a b = .error ⟨.memoryOutOfRange, a⟩ := by
  rcases s.memWrite_cases a b with ⟨⟨hle, _⟩, _⟩ | ⟨_, e⟩ | ⟨hlow, _, _⟩
  · omega
  · exact e
  · omega

/-- The low-memory check of R82. -/
theorem State.memWrite_protected (s : State) {a : Nat} (b : Byte) (h : a < 0x200)
    (hp : s.policy.lowWrite = .fault) : s.memWrite a b = .error ⟨.protectedWrite, a⟩ := by
  rcases s.memWrite_cases a b with ⟨⟨_, hlow⟩, _⟩ | ⟨hhigh, _⟩ | ⟨_, _, e⟩
  · exact absurd (hlow hp) (by omega)
  · omega
  · exact e

/-- Settles O36: by all that one byte's read and write can do. -/
theorem byteAccessChecks : Obligations.ByteAccessChecks := by
  unfold Obligations.ByteAccessChecks
  refine fun s a b => ⟨fun hhigh => ?_, fun hle => ?_, s.memWrite_outOfRange b, s.memWrite_protected b,
    fun hle hlow => ?_⟩
  · rcases s.memRead_cases a with ⟨hle, _⟩ | ⟨_, e⟩
    · omega
    · exact e
  · rcases s.memRead_cases a with ⟨_, e⟩ | ⟨hhigh, _⟩
    · exact e
    · omega
  · have hw : s.Writable a := by
      refine ⟨hle, fun hfault => hlow.resolve_right fun hallow => ?_⟩
      rw [hfault] at hallow; cases hallow
    exact ⟨_, (s.memWrite_ok_iff _ a b).mpr ⟨hw, rfl⟩, by simp, rfl, onlyBytes_write s a b⟩

/-- The word at an even PC inside memory, as the number of its two bytes (R83). -/
theorem State.fetch_ok_toNat {s : State} (heven : s.pc.toNat % 2 = 0) (hle : s.pc.toNat ≤ 0xFFE) :
    ∃ w, s.fetch = .ok w ∧
      w.toNat = (s.mem.read s.pc.toNat).toNat * 256 + (s.mem.read (s.pc.toNat + 1)).toNat := by
  rcases s.fetch_cases with ⟨hodd, _⟩ | ⟨_, hhigh, _⟩ | ⟨_, _, e⟩
  · omega
  · omega
  · exact ⟨_, e, wordOfBytes_toNat _ _⟩

/-- Settles O37: the fetch reads the written memory byte by byte. -/
theorem storeSeenByFetch : Obligations.StoreSeenByFetch := by
  unfold Obligations.StoreSeenByFetch
  intro s t a b hwrite heven hle
  obtain ⟨_, rfl⟩ := (s.memWrite_ok_iff t a b).mp hwrite
  simpa only [Memory.read_write] using
    State.fetch_ok_toNat (s := { s with mem := s.mem.write a b }) heven hle

end Sys2Proof.Machine
end

section
/-! What no step changes: the parameters (R5) and, under LOW_WRITE_POLICY = FAULT, the bytes below 0x200 (R82). -/

namespace Sys2Proof.Machine

/-- `t` has the parameters of `s` and, where `s` protects low memory, its bytes below 0x200. -/
def KeepsProtected (s t : State) : Prop :=
  t.policy = s.policy ∧ (s.policy.lowWrite = .fault → ∀ a < 0x200, t.mem.read a = s.mem.read a)

theorem KeepsProtected.of_eq {s t : State} (hpolicy : t.policy = s.policy) (hmem : t.mem = s.mem) :
    KeepsProtected s t :=
  ⟨hpolicy, fun _ _ _ => by rw [hmem]⟩

/-- Bytes stored at writable addresses leave the protected bytes. -/
theorem Memory.read_place_of_protected {s : State} {a c : Nat} {bs : List Byte}
    (hw : ∀ k, k < bs.length → s.Writable (a + k)) (hfault : s.policy.lowWrite = .fault) (hc : c < 0x200) :
    (s.mem.place a bs).read c = s.mem.read c := by
  rw [Memory.read_place]
  refine if_neg fun ⟨hac, hlast⟩ => ?_
  have hlow := (hw (c - a) (by omega)).2 hfault
  omega

theorem Effect.keepsProtected {i : Instr} {s t : State} (he : Effect i s t) : KeepsProtected s t := by
  obtain ⟨_, _, hpolicy, _⟩ := he.run
  rcases he.mem with e | ⟨a, bs, hw, e⟩
  · exact .of_eq hpolicy e
  · exact ⟨hpolicy, fun hfault c hc => by rw [e]; exact Memory.read_place_of_protected hw hfault hc⟩

theorem cpuStep_keepsProtected {s t : State} (h : cpuStep s = .next t) : KeepsProtected s t := by
  rcases cpuStep_cases h with ⟨_, rfl⟩ | ⟨_, _, _, _, he⟩ | ⟨_, _, _, _, _, rfl⟩
  · exact .of_eq rfl rfl
  · exact he.keepsProtected
  · exact .of_eq rfl rfl

/-- Neither the poll nor the tick reaches memory or the parameters. -/
theorem iterate_keepsProtected {s t : State} {keysIn : Keys} {tick : Bool} {rnd : Byte}
    (h : s.iterate keysIn tick rnd = .next t) : KeepsProtected s t := by
  obtain ⟨u, hu, rfl⟩ := iterate_next_iff.mp h
  have hpolled : KeepsProtected (s.poll keysIn rnd) u := cpuStep_keepsProtected hu
  exact hpolled

/-- Settles O38: by what a step can be, and for an iteration by the bounds of every instruction's effect. -/
theorem lowMemoryAndParametersKept : Obligations.LowMemoryAndParametersKept := by
  unfold Obligations.LowMemoryAndParametersKept
  intro s t h
  rcases step_next_cases h with ⟨_, _, _, _, _, hit⟩ | ⟨_, _, rfl⟩ | ⟨_, hit⟩
  · exact (iterate_keepsProtected hit :)
  · exact KeepsProtected.of_eq rfl rfl
  · exact (iterate_keepsProtected hit :)

end Sys2Proof.Machine
end

section
/-! Non-interference of the devices (R80, R511). A change of the display, the latch and the timers that avoids
what an instruction reaches passes through its execution; the change of one part alone is a case of it. -/

namespace Sys2Proof.Machine

/-- A change of the four device parts of the state. -/
structure DeviceMap where
  disp : Display → Display := id
  keys : Keys → Keys := id
  dt : Byte → Byte := id
  st : Byte → Byte := id

/-- The state with its device parts changed. -/
def DeviceMap.on (m : DeviceMap) (s : State) : State :=
  { s with disp := m.disp s.disp, keys := m.keys s.keys, dt := m.dt s.dt, st := m.st s.st }

/-- The change leaves the device the instruction reaches, if it reaches one. -/
def DeviceMap.Avoids (m : DeviceMap) : Instr → Prop
  | .cls | .drwVxVyN _ _ _ => m.disp = id
  | .skpVx _ | .sknpVx _ | .ldVxK _ => m.keys = id
  | .ldVxDt _ | .ldDtVx _ => m.dt = id
  | .ldStVx _ => m.st = id
  | _ => True

/-! ### The shared operations under a change of the devices -/

section
variable (m : DeviceMap) (s : State)

@[simp] theorem DeviceMap.on_disp : (m.on s).disp = m.disp s.disp := rfl

@[simp] theorem DeviceMap.on_keys : (m.on s).keys = m.keys s.keys := rfl

@[simp] theorem DeviceMap.on_pc : (m.on s).pc = s.pc := rfl

@[simp] theorem DeviceMap.on_policy : (m.on s).policy = s.policy := rfl

@[simp] theorem DeviceMap.on_getV (r : Reg) : (m.on s).getV r = s.getV r := rfl

@[simp] theorem DeviceMap.on_base : (m.on s).base = s.base := rfl

@[simp] theorem DeviceMap.on_advance : (m.on s).advance = m.on s.advance := rfl

@[simp] theorem DeviceMap.on_keyIndex (b : Byte) : (m.on s).keyIndex b = s.keyIndex b := rfl

@[simp] theorem DeviceMap.on_memReads (a n : Nat) : (m.on s).memReads a n = s.memReads a n := by
  induction n generalizing a with
  | zero => rfl
  | succ n ih => simp only [State.memReads, ih]; rfl

@[simp] theorem DeviceMap.on_memWrite (a : Nat) (b : Byte) :
    (m.on s).memWrite a b = (s.memWrite a b).map m.on := by
  rcases s.memWrite_cases a b with ⟨hw, e⟩ | ⟨hhigh, e⟩ | ⟨hlow, hfault, e⟩ <;> rw [e]
  · exact ((m.on s).memWrite_ok_iff _ a b).mpr ⟨hw, rfl⟩
  · exact (m.on s).memWrite_outOfRange b hhigh
  · exact (m.on s).memWrite_protected b hlow hfault

@[simp] theorem DeviceMap.on_memWrites (a : Nat) (bs : List Byte) :
    (m.on s).memWrites a bs = (s.memWrites a bs).map m.on := by
  induction bs generalizing s a with
  | nil => rfl
  | cons b bs ih =>
    simp only [State.memWrites, on_memWrite]
    cases s.memWrite a b with
    | error trap => rfl
    | ok s' => exact ih s' (a + 1)

@[simp] theorem DeviceMap.on_loadRegs (k : Nat) (bs : List Byte) :
    (m.on s).loadRegs k bs = m.on (s.loadRegs k bs) := by
  induction bs generalizing s k with
  | nil => rfl
  | cons b bs ih => exact ih (s.setV (Fin.ofNat 16 k) b) (k + 1)

@[simp] theorem DeviceMap.on_push (a : Word) : (m.on s).push a = (s.push a).map m.on := by
  simp only [State.push, on]
  cases s.policy.stack with
  | fault => by_cases h : s.sp.val = 16 <;> simp only [h, if_true, if_false] <;> rfl
  | wrap => rfl

@[simp] theorem DeviceMap.on_popPc : (m.on s).popPc = s.popPc.map m.on := by
  simp only [State.popPc, on]
  cases s.policy.stack with
  | fault => by_cases h : s.sp.val = 0 <;> simp only [h, if_true, if_false] <;> rfl
  | wrap => rfl

@[simp] theorem DeviceMap.on_flagAndResult (x y : Reg) (f r : Byte → Byte → Byte) :
    (m.on s).flagAndResult x y f r = m.on (s.flagAndResult x y f r) := by
  simp only [State.flagAndResult, on_policy]
  cases s.policy.aliasing <;> rfl

/-- Ending a step passes the change on, whether the step computed a state or a fault. -/
theorem DeviceMap.on_finish {r r' : Except Trap State} {t : State} (hr : r' = r.map m.on)
    (h : s.finish r = .next t) : (m.on s).finish r' = .next (m.on t) := by
  subst hr
  cases r with
  | ok u => cases h; rfl
  | error trap => cases h; rfl

end

/-! ### Execution under a change of the devices -/

/-- Every instruction answers alike on a state changed only in devices it does not reach, and passes the
change on. -/
theorem DeviceMap.Avoids.exec_on {m : DeviceMap} {i : Instr} (hm : m.Avoids i) {s t : State}
    (h : exec i s = .next t) : exec i (m.on s) = .next (m.on t) := by
  cases i with
  | cls | ldVxDt _ | ldDtVx _ | ldStVx _ => cases m; cases hm; cases h; rfl
  | ret => exact m.on_finish s (m.on_popPc s.advance) h
  | callNnn nnn =>
    refine m.on_finish s ?_ h
    simp only [on_advance, on_push, on_pc]
    cases s.advance.push s.advance.pc <;> rfl
  | subVxVy _ _ | shrVx _ | subnVxVy _ _ | shlVx _ =>
    cases h
    exact congrArg Host.Outcome.next (m.on_flagAndResult s.advance _ _ _ _)
  | drwVxVyN x y n =>
    have hdisp : m.disp = id := hm
    refine m.on_finish s ?_ h
    simp only [on_memReads, on_base, on_policy, on_getV, on_disp, hdisp]
    cases s.memReads s.base n.val with
    | error trap => rfl
    | ok rows => cases m; cases hm; rfl
  | skpVx x | sknpVx x =>
    have hkeys : m.keys = id := hm
    refine m.on_finish s ?_ h
    simp only [on_keyIndex, on_getV, on_keys, hkeys]
    cases s.keyIndex (s.getV x) <;> rfl
  | ldVxK x =>
    have hkeys : m.keys = id := hm
    cases h
    simp only [exec, execLdVxK, on_keys, hkeys, id]
    cases lowestKey s.keys <;> rfl
  | ldBVx _ | ldMemVx _ => exact m.on_finish s (m.on_memWrites s.advance _ _) h
  | ldVxMem x =>
    refine m.on_finish s ?_ h
    simp only [on_memReads, on_base, on_advance, on_loadRegs]
    cases s.memReads s.base (x.val + 1) <;> rfl
  | jpNnn _ | seVxKk _ _ | sneVxKk _ _ | seVxVy _ _ | ldVxKk _ _ | addVxKk _ _ | ldVxVy _ _ | orVxVy _ _
  | andVxVy _ _ | xorVxVy _ _ | addVxVy _ _ | sneVxVy _ _ | ldINnn _ | jpV0Nnn _ | rndVxKk _ _ | addIVx _
  | ldFVx _ => cases h; rfl

/-- Settles O39: the change of one part to a given value avoids every form but the part's own. -/
theorem devicesReachedOnlyByTheirForms : Obligations.DevicesReachedOnlyByTheirForms := by
  unfold Obligations.DevicesReachedOnlyByTheirForms
  intro i s t h
  refine ⟨fun hcls hdrw d => ?_, fun hskp hsknp hld k => ?_, fun hfrom hto b => ?_, fun hto b => ?_⟩
  · have hm : DeviceMap.Avoids { disp := fun _ => d } i := by
      cases i with
      | cls => exact absurd rfl hcls
      | drwVxVyN x y n => exact absurd rfl (hdrw x y n)
      | _ => simp only [DeviceMap.Avoids]
    exact hm.exec_on h
  · have hm : DeviceMap.Avoids { keys := fun _ => k } i := by
      cases i with
      | skpVx x => exact absurd rfl (hskp x)
      | sknpVx x => exact absurd rfl (hsknp x)
      | ldVxK x => exact absurd rfl (hld x)
      | _ => simp only [DeviceMap.Avoids]
    exact hm.exec_on h
  · have hm : DeviceMap.Avoids { dt := fun _ => b } i := by
      cases i with
      | ldVxDt x => exact absurd rfl (hfrom x)
      | ldDtVx x => exact absurd rfl (hto x)
      | _ => simp only [DeviceMap.Avoids]
    exact hm.exec_on h
  · have hm : DeviceMap.Avoids { st := fun _ => b } i := by
      cases i with
      | ldStVx x => exact absurd rfl (hto x)
      | _ => simp only [DeviceMap.Avoids]
    exact hm.exec_on h

end Sys2Proof.Machine
end

section
/-! The decoder and the encoder as inverses (30_encoding.md R124, R130, R131, R134, R136). An instruction's form and
a word give the instruction of that form with its operands read from the word; every word's decoding is
described by it, branch by branch of the decoder, once. -/

namespace Sys2Proof

/-! ### The fields of a word made of fields, and of a masked word -/

theorem Word.op_lt (w : Word) : w.op < 16 := (w.extractLsb' 12 4).isLt

@[simp] theorem formatA_nnn (op : BitVec 4) (nnn : Addr12) : (formatA op nnn).nnn = nnn := by
  have := nnn.isLt
  apply BitVec.eq_of_toNat_eq
  rw [Word.nnn_toNat, formatA_toNat]
  omega

@[simp] theorem formatXK_x (op : BitVec 4) (x : Reg) (kk : Byte) : (formatXK op x kk).x = x := by
  have := x.isLt
  have := kk.isLt
  apply Fin.ext
  rw [Word.x_val, formatXK_toNat]
  omega

@[simp] theorem formatXK_kk (op : BitVec 4) (x : Reg) (kk : Byte) : (formatXK op x kk).kk = kk := by
  have := kk.isLt
  apply BitVec.eq_of_toNat_eq
  rw [Word.kk_toNat, formatXK_toNat]
  omega

section
variable (op : BitVec 4) (x y : Reg) (n : BitVec 4)

@[simp] theorem formatXYN_x : (formatXYN op x y n).x = x := by
  have := n.isLt
  apply Fin.ext
  rw [Word.x_val, formatXYN_toNat]
  omega

@[simp] theorem formatXYN_y : (formatXYN op x y n).y = y := by
  have := n.isLt
  apply Fin.ext
  rw [Word.y_val, formatXYN_toNat]
  omega

@[simp] theorem formatXYN_n : (formatXYN op x y n).n = n.toFin := by
  have := n.isLt
  apply Fin.ext
  rw [Word.n_val, formatXYN_toNat, BitVec.val_toFin n]
  omega

end

/-! A word is made of its own fields, and a masked word of those the mask keeps. -/

section
variable {w : Word} {op : BitVec 4}

theorem formatA_of_fields (hop : w.op = op.toNat) : formatA op w.nnn = w := by
  apply BitVec.eq_of_toNat_eq
  rw [formatA_toNat, ← hop, w.op_eq, w.nnn_toNat]
  omega

theorem formatXK_of_fields {kk : Byte} (hop : w.op = op.toNat) (hkk : w.kk = kk) :
    formatXK op w.x kk = w := by
  apply BitVec.eq_of_toNat_eq
  rw [formatXK_toNat, ← hop, ← hkk, w.op_eq, w.x_val, w.kk_toNat]
  omega

theorem formatXYN_of_fields {n : BitVec 4} (hop : w.op = op.toNat) (hn : w.n = n.toFin) :
    formatXYN op w.x w.y n = w := by
  apply BitVec.eq_of_toNat_eq
  rw [formatXYN_toNat, w.toNat_eq, hop, hn, BitVec.val_toFin n]

theorem formatXY0_of_fields (hop : w.op = op.toNat) : formatXYN op w.x w.y 0 = w &&& 0xFFF0 := by
  apply BitVec.eq_of_toNat_eq
  rw [formatXYN_toNat, mask_FFF0, hop]
  simp

theorem formatX0N_of_fields {n : BitVec 4} (hop : w.op = op.toNat) (hn : w.n = n.toFin) :
    formatXYN op w.x 0 n = w &&& 0xFF0F := by
  apply BitVec.eq_of_toNat_eq
  rw [formatXYN_toNat, mask_FF0F, hop, hn]
  simp

end

/-! The masked bits of a row (R134), from the fields its mask keeps. -/

section
variable {w p : Word} {op : Nat}

theorem and_F000_of_op (hop : w.op = op) (hp : p.toNat = op * 4096) : w &&& 0xF000 = p :=
  BitVec.eq_of_toNat_eq (by rw [mask_F000, hop, hp])

theorem and_F00F_of_n {n : Nat} (hop : w.op = op) (hn : w.n.val = n) (hp : p.toNat = op * 4096 + n) :
    w &&& 0xF00F = p :=
  BitVec.eq_of_toNat_eq (by rw [mask_F00F, hop, hn, hp])

theorem and_F0FF_of_kk {kk : Nat} (hop : w.op = op) (hkk : w.kk.toNat = kk)
    (hp : p.toNat = op * 4096 + kk) : w &&& 0xF0FF = p :=
  BitVec.eq_of_toNat_eq (by rw [mask_F0FF, hop, hkk, hp])

end

/-! ### A form with the operands of a word -/

/-- The instruction of the same form whose operands are the fields of `w` (R121, R134). -/
def Instr.withFieldsOf (w : Word) : Instr → Instr
  | .cls => .cls
  | .ret => .ret
  | .jpNnn _ => .jpNnn w.nnn
  | .callNnn _ => .callNnn w.nnn
  | .seVxKk _ _ => .seVxKk w.x w.kk
  | .sneVxKk _ _ => .sneVxKk w.x w.kk
  | .seVxVy _ _ => .seVxVy w.x w.y
  | .ldVxKk _ _ => .ldVxKk w.x w.kk
  | .addVxKk _ _ => .addVxKk w.x w.kk
  | .ldVxVy _ _ => .ldVxVy w.x w.y
  | .orVxVy _ _ => .orVxVy w.x w.y
  | .andVxVy _ _ => .andVxVy w.x w.y
  | .xorVxVy _ _ => .xorVxVy w.x w.y
  | .addVxVy _ _ => .addVxVy w.x w.y
  | .subVxVy _ _ => .subVxVy w.x w.y
  | .shrVx _ => .shrVx w.x
  | .subnVxVy _ _ => .subnVxVy w.x w.y
  | .shlVx _ => .shlVx w.x
  | .sneVxVy _ _ => .sneVxVy w.x w.y
  | .ldINnn _ => .ldINnn w.nnn
  | .jpV0Nnn _ => .jpV0Nnn w.nnn
  | .rndVxKk _ _ => .rndVxKk w.x w.kk
  | .drwVxVyN _ _ _ => .drwVxVyN w.x w.y w.n
  | .skpVx _ => .skpVx w.x
  | .sknpVx _ => .sknpVx w.x
  | .ldVxDt _ => .ldVxDt w.x
  | .ldVxK _ => .ldVxK w.x
  | .ldDtVx _ => .ldDtVx w.x
  | .ldStVx _ => .ldStVx w.x
  | .addIVx _ => .addIVx w.x
  | .ldFVx _ => .ldFVx w.x
  | .ldBVx _ => .ldBVx w.x
  | .ldMemVx _ => .ldMemVx w.x
  | .ldVxMem _ => .ldVxMem w.x

/-- `w` is a word of `i`'s row with `i`'s operands in its fields. -/
def Instr.ReadFrom (i : Instr) (w : Word) : Prop :=
  w &&& i.row.mask = i.row.pattern ∧ i.withFieldsOf w = i

@[simp] theorem Instr.row_withFieldsOf (i : Instr) (w : Word) : (i.withFieldsOf w).row = i.row := by
  cases i <;> rfl

/-- The canonical word's fields hold the operands (R136). -/
@[simp] theorem Instr.withFieldsOf_encode (i : Instr) : i.withFieldsOf (encode i) = i := by
  cases i with
  | cls | ret => rfl
  | jpNnn _ | callNnn _ | ldINnn _ | jpV0Nnn _ | seVxKk _ _ | sneVxKk _ _ | ldVxKk _ _
  | addVxKk _ _ | rndVxKk _ _ | skpVx _ | sknpVx _ | ldVxDt _ | ldVxK _ | ldDtVx _ | ldStVx _ | addIVx _
  | ldFVx _ | ldBVx _ | ldMemVx _ | ldVxMem _ =>
    simp [withFieldsOf, encode]
  | seVxVy _ _ | ldVxVy _ _ | orVxVy _ _ | andVxVy _ _ | xorVxVy _ _ | addVxVy _ _ | subVxVy _ _
  | shrVx _ | subnVxVy _ _ | shlVx _ | sneVxVy _ _ | drwVxVyN _ _ _ =>
    simp [withFieldsOf, encode, nibble]

/-! ### The rows -/

/-- Laws/PerInstr's lemmas, over all forms at once. -/
theorem encodeRow_statement : ∀ i : Instr, Laws.EncodeRow.Statement i
  | .cls => Laws.EncodeRow.cls
  | .ret => Laws.EncodeRow.ret
  | .jpNnn nnn => Laws.EncodeRow.jpNnn nnn
  | .callNnn nnn => Laws.EncodeRow.callNnn nnn
  | .seVxKk x kk => Laws.EncodeRow.seVxKk x kk
  | .sneVxKk x kk => Laws.EncodeRow.sneVxKk x kk
  | .seVxVy x y => Laws.EncodeRow.seVxVy x y
  | .ldVxKk x kk => Laws.EncodeRow.ldVxKk x kk
  | .addVxKk x kk => Laws.EncodeRow.addVxKk x kk
  | .ldVxVy x y => Laws.EncodeRow.ldVxVy x y
  | .orVxVy x y => Laws.EncodeRow.orVxVy x y
  | .andVxVy x y => Laws.EncodeRow.andVxVy x y
  | .xorVxVy x y => Laws.EncodeRow.xorVxVy x y
  | .addVxVy x y => Laws.EncodeRow.addVxVy x y
  | .subVxVy x y => Laws.EncodeRow.subVxVy x y
  | .shrVx x => Laws.EncodeRow.shrVx x
  | .subnVxVy x y => Laws.EncodeRow.subnVxVy x y
  | .shlVx x => Laws.EncodeRow.shlVx x
  | .sneVxVy x y => Laws.EncodeRow.sneVxVy x y
  | .ldINnn nnn => Laws.EncodeRow.ldINnn nnn
  | .jpV0Nnn nnn => Laws.EncodeRow.jpV0Nnn nnn
  | .rndVxKk x kk => Laws.EncodeRow.rndVxKk x kk
  | .drwVxVyN x y n => Laws.EncodeRow.drwVxVyN x y n
  | .skpVx x => Laws.EncodeRow.skpVx x
  | .sknpVx x => Laws.EncodeRow.sknpVx x
  | .ldVxDt x => Laws.EncodeRow.ldVxDt x
  | .ldVxK x => Laws.EncodeRow.ldVxK x
  | .ldDtVx x => Laws.EncodeRow.ldDtVx x
  | .ldStVx x => Laws.EncodeRow.ldStVx x
  | .addIVx x => Laws.EncodeRow.addIVx x
  | .ldFVx x => Laws.EncodeRow.ldFVx x
  | .ldBVx x => Laws.EncodeRow.ldBVx x
  | .ldMemVx x => Laws.EncodeRow.ldMemVx x
  | .ldVxMem x => Laws.EncodeRow.ldVxMem x

/-- Every form's canonical word is a word of its row (R134, R136). -/
theorem encode_and_row_mask (i : Instr) : encode i &&& i.row.mask = i.row.pattern :=
  (encodeRow_statement i).2

/-- A row's mask asks for no bit the decoder does not examine. -/
theorem examined_and_row_mask (i : Instr) : i.examined &&& i.row.mask = i.row.mask := by
  cases i <;> (simp only [Instr.examined, Instr.row]; rfl)

theorem Instr.row_mem_opcodeTable (i : Instr) : i.row ∈ opcodeTable := by
  have hsample : i.withFieldsOf 0 ∈ formSamples := by cases i <;> (simp only [withFieldsOf]; decide)
  exact List.mem_map.mpr ⟨_, hsample, i.row_withFieldsOf 0⟩

theorem OpcodeRow.admits_iff (r : OpcodeRow) (w : Word) : r.admits w = true ↔ w &&& r.mask = r.pattern :=
  beq_iff_eq

/-- A row of the map is the row of some form. -/
theorem exists_row_of_mem {r : OpcodeRow} (h : r ∈ opcodeTable) : ∃ i : Instr, i.row = r := by
  obtain ⟨i, _, hrow⟩ := List.mem_map.mp h
  exact ⟨i, hrow⟩

/-! ### A word of a row: its fixed fields and its decoding -/

section
variable {i : Instr} {w : Word} (h : w &&& i.row.mask = i.row.pattern)
include h

/-- Every mask keeps the family nibble. -/
theorem Instr.op_of_row : w.op = i.row.pattern.op := by
  have hkeeps : i.row.mask.extractLsb' 12 4 = BitVec.allOnes 4 := by
    cases i <;> (simp only [Instr.row]; rfl)
  rw [← h, Word.op, Word.op, slice_kept w _ 12 4 hkeeps]

theorem Instr.n_of_row (hmask : i.row.mask = 0xF00F) : w.n = i.row.pattern.n := by
  rw [← h, hmask, Word.n, Word.n, slice_kept w _ 0 4 rfl]

theorem Instr.kk_of_row (hmask : i.row.mask = 0xF0FF) : w.kk = i.row.pattern.kk := by
  rw [← h, hmask, Word.kk, Word.kk, slice_kept w _ 0 8 rfl]

/-- A word of a row decodes to the row's form with the word's own fields (R124, R134): the `Decodes` clause of
any form. -/
theorem decodeWord_of_row : decodeWord w = .ok (i.withFieldsOf w) := by
  have hop := Instr.op_of_row h
  have hn := Instr.n_of_row h
  have hkk := Instr.kk_of_row h
  cases i with
  | jpNnn _ | callNnn _ | seVxKk _ _ | sneVxKk _ _ | seVxVy _ _ | ldVxKk _ _ | addVxKk _ _ | sneVxVy _ _
  | ldINnn _ | jpV0Nnn _ | rndVxKk _ _ | drwVxVyN _ _ _ =>
    simp only [Instr.row] at hop
    rw [decodeWord, hop]; rfl
  | cls | ret =>
    simp only [Instr.row] at hop hkk
    rw [decodeWord, hop]
    change decodeFamily0 w = _
    rw [decodeFamily0, hkk trivial]; rfl
  | ldVxVy _ _ | orVxVy _ _ | andVxVy _ _ | xorVxVy _ _ | addVxVy _ _ | subVxVy _ _ | shrVx _
  | subnVxVy _ _ | shlVx _ =>
    simp only [Instr.row] at hop hn
    rw [decodeWord, hop]
    change decodeFamily8 w = _
    rw [decodeFamily8, hn trivial]; rfl
  | skpVx _ | sknpVx _ =>
    simp only [Instr.row] at hop hkk
    rw [decodeWord, hop]
    change decodeFamilyE w = _
    rw [decodeFamilyE, hkk trivial]; rfl
  | ldVxDt _ | ldVxK _ | ldDtVx _ | ldStVx _ | addIVx _ | ldFVx _ | ldBVx _ | ldMemVx _ | ldVxMem _ =>
    simp only [Instr.row] at hop hkk
    rw [decodeWord, hop]
    change decodeFamilyF w = _
    rw [decodeFamilyF, hkk trivial]; rfl

/-- Encoding the form with a row's word's fields clears that word's ignored bits (R130, R136). -/
theorem encode_withFieldsOf : encode (i.withFieldsOf w) = w &&& i.examined := by
  have hop := Instr.op_of_row h
  have hn := Instr.n_of_row h
  have hkk := Instr.kk_of_row h
  cases i with
  | cls | ret => exact h.symm
  | seVxVy _ _ | sneVxVy _ _ =>
    simp only [Instr.row] at hop
    exact formatXY0_of_fields hop
  | shrVx _ | shlVx _ =>
    simp only [Instr.row] at hop hn
    exact formatX0N_of_fields hop (hn trivial)
  | jpNnn _ | callNnn _ | ldINnn _ | jpV0Nnn _ =>
    simp only [Instr.row] at hop
    exact (formatA_of_fields hop).trans BitVec.and_allOnes.symm
  | seVxKk _ _ | sneVxKk _ _ | ldVxKk _ _ | addVxKk _ _ | rndVxKk _ _ =>
    simp only [Instr.row] at hop
    exact (formatXK_of_fields hop rfl).trans BitVec.and_allOnes.symm
  | ldVxVy _ _ | orVxVy _ _ | andVxVy _ _ | xorVxVy _ _ | addVxVy _ _ | subVxVy _ _ | subnVxVy _ _ =>
    simp only [Instr.row] at hop hn
    exact (formatXYN_of_fields hop (hn trivial)).trans BitVec.and_allOnes.symm
  | drwVxVyN _ _ _ =>
    simp only [Instr.row] at hop
    exact (formatXYN_of_fields hop rfl).trans BitVec.and_allOnes.symm
  | skpVx _ | sknpVx _ | ldVxDt _ | ldVxK _ | ldDtVx _ | ldStVx _ | addIVx _ | ldFVx _ | ldBVx _
  | ldMemVx _ | ldVxMem _ =>
    simp only [Instr.row] at hop hkk
    exact (formatXK_of_fields hop (hkk trivial)).trans BitVec.and_allOnes.symm

end

/-- The canonical word is of its row, and its fields hold the operands. -/
@[simp] theorem decodeWord_encode (i : Instr) : decodeWord (encode i) = .ok i := by
  rw [decodeWord_of_row (encode_and_row_mask i), i.withFieldsOf_encode]

/-- Settles O40: operands fit their fields by their types. -/
theorem decodeEncodeRoundTrip : Obligations.DecodeEncodeRoundTrip := by
  unfold Obligations.DecodeEncodeRoundTrip
  exact fun i _ => decodeWord_encode i

/-! ### All that decoding a word can do -/

/-- A word of a family that multiplexes with a selector of none of its forms (R131). -/
def Word.Unknown (w : Word) : Prop :=
  (w.op = 0x0 ∧ w.kk.toNat ∉ [0xE0, 0xEE]) ∨
  (w.op = 0x8 ∧ w.n.val ∈ [0x8, 0x9, 0xA, 0xB, 0xC, 0xD, 0xF]) ∨
  (w.op = 0xE ∧ w.kk.toNat ∉ [0x9E, 0xA1]) ∨
  (w.op = 0xF ∧ w.kk.toNat ∉ [0x07, 0x0A, 0x15, 0x18, 0x1E, 0x29, 0x33, 0x55, 0x65])

/-- `r` is an instruction read from `w`, a known word, or the rejection of `w`, an unknown one. -/
def DecodesExactly (w : Word) (r : Except Reject Instr) : Prop :=
  (∃ i, r = .ok i ∧ i.ReadFrom w ∧ ¬ w.Unknown) ∨ (r = .error (.unknownOpcode w) ∧ w.Unknown)

theorem DecodesExactly.ok {w : Word} {i : Instr} (hread : i.ReadFrom w) (hknown : ¬ w.Unknown) :
    DecodesExactly w (.ok i) :=
  .inl ⟨i, rfl, hread, hknown⟩

theorem DecodesExactly.unknown {w : Word} (h : w.Unknown) : DecodesExactly w (.error (.unknownOpcode w)) :=
  .inr ⟨rfl, h⟩

theorem decodeFamily0_exact {w : Word} (hop : w.op = 0x0) : DecodesExactly w (decodeFamily0 w) := by
  unfold decodeFamily0
  split
  case h_3 => exact .unknown (by simp_all [Word.Unknown])
  all_goals
    next hkk => exact .ok ⟨and_F0FF_of_kk hop hkk rfl, rfl⟩ (by simp [Word.Unknown, hop, hkk])

theorem decodeFamily8_exact {w : Word} (hop : w.op = 0x8) : DecodesExactly w (decodeFamily8 w) := by
  unfold decodeFamily8
  split
  case h_10 =>
    have := w.n.isLt
    refine .unknown (.inr (.inl ⟨hop, ?_⟩))
    simp only [imp_false, List.mem_cons, List.not_mem_nil, or_false] at *
    omega
  all_goals
    next hn => exact .ok ⟨and_F00F_of_n hop hn rfl, rfl⟩ (by simp [Word.Unknown, hop, hn])

theorem decodeFamilyE_exact {w : Word} (hop : w.op = 0xE) : DecodesExactly w (decodeFamilyE w) := by
  unfold decodeFamilyE
  split
  case h_3 => exact .unknown (by simp_all [Word.Unknown])
  all_goals
    next hkk => exact .ok ⟨and_F0FF_of_kk hop hkk rfl, rfl⟩ (by simp [Word.Unknown, hop, hkk])

theorem decodeFamilyF_exact {w : Word} (hop : w.op = 0xF) : DecodesExactly w (decodeFamilyF w) := by
  unfold decodeFamilyF
  split
  case h_10 => exact .unknown (by simp_all [Word.Unknown])
  all_goals
    next hkk => exact .ok ⟨and_F0FF_of_kk hop hkk rfl, rfl⟩ (by simp [Word.Unknown, hop, hkk])

theorem decodeWord_exact (w : Word) : DecodesExactly w (decodeWord w) := by
  unfold decodeWord
  split
  case h_1 hop => exact decodeFamily0_exact hop
  case h_9 hop => exact decodeFamily8_exact hop
  case h_15 hop => exact decodeFamilyE_exact hop
  case h_16 =>
    have := w.op_lt
    simp only [imp_false] at *
    exact decodeFamilyF_exact (by omega)
  all_goals
    next hop => exact .ok ⟨and_F000_of_op hop rfl, rfl⟩ (by simp [Word.Unknown, hop])

/-- What a word decodes to is read from it. -/
theorem readFrom_of_decodeWord {w : Word} {i : Instr} (h : decodeWord w = .ok i) : i.ReadFrom w := by
  rcases decodeWord_exact w with ⟨j, e, hread, _⟩ | ⟨e, _⟩ <;> rw [h] at e <;> cases e
  exact hread

/-! ### The obligations about words -/

/-- Settles O41: both sides say that `w` is of `i`'s row with `i`'s operands; that two instructions with the
same canonical word are the same is the round trip. -/
theorem wordsOfEachInstruction : Obligations.WordsOfEachInstruction := by
  unfold Obligations.WordsOfEachInstruction
  refine fun w i => ⟨fun h => ?_, fun h => ?_⟩
  · obtain ⟨hrow, hfields⟩ := readFrom_of_decodeWord h
    rw [← encode_withFieldsOf hrow, hfields]
  · have hrow : w &&& i.row.mask = i.row.pattern := by
      rw [← encode_and_row_mask i, ← h, BitVec.and_assoc, examined_and_row_mask]
    calc decodeWord w = .ok (i.withFieldsOf w) := decodeWord_of_row hrow
      _ = decodeWord (encode (i.withFieldsOf w)) := (decodeWord_encode _).symm
      _ = decodeWord (encode i) := by rw [encode_withFieldsOf hrow, h]
      _ = .ok i := decodeWord_encode i

/-- Settles O42: a word of a row decodes to that row's form, so a word has one row. -/
theorem opcodeMapExclusive : Obligations.OpcodeMapExclusive := by
  unfold Obligations.OpcodeMapExclusive
  simp only [OpcodeRow.admits_iff]
  refine ⟨rfl, fun w p hp q hq hpw hqw => ?_, fun w p hp hpw => ?_, fun w i h => ?_⟩
  · obtain ⟨i, rfl⟩ := exists_row_of_mem hp
    obtain ⟨j, rfl⟩ := exists_row_of_mem hq
    have hsame : i.withFieldsOf w = j.withFieldsOf w :=
      Except.ok.inj ((decodeWord_of_row hpw).symm.trans (decodeWord_of_row hqw))
    rw [← i.row_withFieldsOf w, hsame, j.row_withFieldsOf]
  · obtain ⟨i, rfl⟩ := exists_row_of_mem hp
    exact ⟨_, decodeWord_of_row hpw, i.row_withFieldsOf w⟩
  · exact ⟨i.row_mem_opcodeTable, (readFrom_of_decodeWord h).1⟩

/-- Settles O43: by all that decoding a word can do. -/
theorem unknownWordsExact : Obligations.UnknownWordsExact := by
  unfold Obligations.UnknownWordsExact
  intro w
  rw [← w.op_eq, ← w.kk_toNat, ← w.n_val]
  change (_ ↔ w.Unknown) ∧ _
  rcases decodeWord_exact w with ⟨i, e, _, hknown⟩ | ⟨e, hunknown⟩
  · simp [e, hknown]
  · simp [e, hunknown]

/-- Settles O44: the decoder evaluated on each word. -/
theorem specWordsDecode : Obligations.SpecWordsDecode := by
  unfold Obligations.SpecWordsDecode
  decide

end Sys2Proof
end

section
/-! The control-transfer forms (40_control_flow.md R205 to R213). RET and CALL each have one next state when they do
not fault, whatever STACK_POLICY is; only the depth it leaves depends on the policy. -/

namespace Sys2Proof.Machine

/-- The masked words of a form's row decode to that form: the first clause of every instruction's statement. -/
theorem decodes_row (i : Instr) : Decodes i.row.mask i.row.pattern fun w => i.withFieldsOf w :=
  fun _ => decodeWord_of_row

/-- Taking a fault at `s` is what `FaultsWith` asks for (R204). -/
theorem faultsWith_raise (s : State) (code : FaultCode) (info : Nat) :
    FaultsWith s (s.raise ⟨code, info⟩) code info := rfl

/-! ### Jumps and skips -/

/-- A change of PC alone. -/
theorem onlyRegs_setPc (s : State) (a : Word) : OnlyRegs noReg s { s with pc := a } :=
  ⟨fun _ _ => rfl, rfl, ⟨rfl, fun _ => rfl⟩, ⟨rfl, rfl⟩, fun _ _ => rfl, fun _ _ => rfl, rfl, rfl, rfl, rfl, rfl, rfl⟩

/-- Where a skip goes on, counted from the instruction's own address (R213). -/
theorem State.skipIf_advance_pc (s : State) (c : Bool) :
    (s.advance.skipIf c).pc = if c then s.pc + 4 else s.pc + 2 := by
  rw [State.skipIf_pc, State.advance_pc, BitVec.add_assoc]; rfl

/-- A skip on equal bytes. -/
theorem skipIf_beq_answers (s : State) (a b : Byte) :
    ∃ t, (.next (s.advance.skipIf (a == b)) : Result) = .next t ∧
      t.pc = (if a = b then s.pc + 4 else s.pc + 2) ∧ OnlyRegs noReg s t :=
  ⟨_, rfl, by simp only [State.skipIf_advance_pc, beq_iff_eq], onlyRegs_setPc s _⟩

/-- A skip on different bytes. -/
theorem skipIf_bne_answers (s : State) (a b : Byte) :
    ∃ t, (.next (s.advance.skipIf (a != b)) : Result) = .next t ∧
      t.pc = (if a = b then s.pc + 2 else s.pc + 4) ∧ OnlyRegs noReg s t :=
  ⟨_, rfl, by simp only [State.skipIf_advance_pc, bne_iff_ne, ite_not], onlyRegs_setPc s _⟩

/-- Settles O3: the jump replaces the advanced PC. -/
theorem jpSetsPc : Obligations.JpSetsPc := by
  unfold Obligations.JpSetsPc
  exact ⟨decodes_row (.jpNnn 0), fun nnn s => ⟨_, rfl, addrOf_toNat nnn, onlyRegs_setPc s _⟩⟩

/-- Settles O4: the sum of a byte and 12 bits fits in 16 bits. -/
theorem jpV0AddsV0 : Obligations.JpV0AddsV0 := by
  unfold Obligations.JpV0AddsV0
  exact ⟨decodes_row (.jpV0Nnn 0), fun nnn s => ⟨_, rfl, offsetTarget_toNat (s.getV 0) nnn, onlyRegs_setPc s _⟩⟩

/-- Settles O5: SE skips on equal bytes and SNE on different ones. -/
theorem immediateSkips : Obligations.ImmediateSkips := by
  unfold Obligations.ImmediateSkips
  exact ⟨decodes_row (.seVxKk 0 0), decodes_row (.sneVxKk 0 0),
    fun x kk s => ⟨skipIf_beq_answers s (s.getV x) kk, skipIf_bne_answers s (s.getV x) kk⟩⟩

/-- Settles O6: as O5, with Vy for the immediate; the rows' mask leaves the low nibble out. -/
theorem registerSkips : Obligations.RegisterSkips := by
  unfold Obligations.RegisterSkips
  exact ⟨decodes_row (.seVxVy 0 0), decodes_row (.sneVxVy 0 0),
    fun x y s => ⟨skipIf_beq_answers s (s.getV x) (s.getV y), skipIf_bne_answers s (s.getV x) (s.getV y)⟩⟩

/-! ### RET (R205) -/

/-- The state a RET leaves with depth `n`: PC is the slot at `n`, and the slots stay. -/
def State.afterRet (s : State) (n : Nat) : State := { s with sp := depth n, pc := s.stack[slot n] }

theorem slot_val_self (k : Fin 16) : slot k.val = k := Fin.ext (Nat.mod_eq_of_lt k.isLt)

section
variable {s : State}

theorem exec_ret_underflow (hp : s.policy.stack = .fault) (hsp : s.sp.val = 0) :
    exec .ret s = .next (s.raise ⟨.stackUnderflow, 0⟩) := by
  rcases s.advance.popPc_cases with ⟨_, _, e⟩ | ⟨_, hpos, _⟩ | ⟨hwrap, _⟩
  · simp only [exec, execRet, e, State.finish_error]
  · rw [State.advance_sp] at hpos; omega
  · rw [State.advance_policy, hp] at hwrap; cases hwrap

theorem exec_ret_fault (hp : s.policy.stack = .fault) (hsp : 0 < s.sp.val) :
    exec .ret s = .next (s.afterRet (s.sp.val - 1)) := by
  rcases s.advance.popPc_cases with ⟨_, hzero, _⟩ | ⟨_, _, e⟩ | ⟨hwrap, _⟩
  · rw [State.advance_sp] at hzero; omega
  · simp only [exec, execRet, e, State.finish_ok]; rfl
  · rw [State.advance_policy, hp] at hwrap; cases hwrap

theorem exec_ret_wrap (hp : s.policy.stack = .wrap) :
    exec .ret s = .next (s.afterRet ((s.sp.val + 15) % 16)) := by
  rcases s.advance.popPc_cases with ⟨hfault, _, _⟩ | ⟨hfault, _, _⟩ | ⟨_, e⟩
  · rw [State.advance_policy, hp] at hfault; cases hfault
  · rw [State.advance_policy, hp] at hfault; cases hfault
  · simp only [exec, execRet, e, State.finish_ok]; rfl

/-- What a completing RET says of the state it leaves, with its frame. -/
theorem ret_answers {n : Nat} (hn : n < 16) (hret : exec .ret s = .next (s.afterRet n)) :
    ∃ t, exec .ret s = .next t ∧ t.sp.val = n ∧ (∀ k : Fin 16, k.val = n → t.pc = s.stack[k]) ∧
      OnlySlots (fun _ => False) s t := by
  refine ⟨_, hret, Nat.mod_eq_of_lt (by omega), ?_,
    fun _ _ => rfl, rfl, fun _ _ => rfl, ⟨rfl, rfl⟩, fun _ _ => rfl, fun _ _ => rfl, rfl, rfl, rfl, rfl, rfl, rfl⟩
  rintro k rfl
  simp only [State.afterRet, slot_val_self]

end

/-- Settles O1: the underflow, the pop under FAULT and the pop under WRAP. -/
theorem retPopsIntoPc : Obligations.RetPopsIntoPc := by
  unfold Obligations.RetPopsIntoPc
  refine ⟨decodes_row .ret, fun s => ⟨fun hp hsp => ?_, fun hp hsp => ?_, fun hp => ?_⟩⟩
  · exact ⟨_, exec_ret_underflow hp hsp, faultsWith_raise s _ _⟩
  · exact ret_answers (by omega) (exec_ret_fault hp hsp)
  · exact ret_answers (by omega) (exec_ret_wrap hp)

/-! ### CALL (R207) -/

/-- The state a CALL leaves with depth `n`: the slot at the old SP holds the address after the CALL. -/
def State.afterCall (s : State) (nnn : Addr12) (n : Nat) : State :=
  { s with stack := s.stack.set (slot s.sp.val) (s.pc + 2), sp := depth n, pc := addrOf nnn }

theorem State.afterCall_stack (s : State) (nnn : Addr12) (n : Nat) (k : Fin 16) :
    (s.afterCall nnn n).stack[k] = if k.val = s.sp.val % 16 then s.pc + 2 else s.stack[k] :=
  (stack_set s.stack (slot s.sp.val) k (s.pc + 2)).trans (if_congr Fin.ext_iff rfl rfl)

section
variable {s : State} (nnn : Addr12)

theorem exec_call_overflow (hp : s.policy.stack = .fault) (hsp : s.sp.val = 16) :
    exec (.callNnn nnn) s = .next (s.raise ⟨.stackOverflow, 16⟩) := by
  rcases s.advance.push_cases s.advance.pc with ⟨_, _, e⟩ | ⟨_, hroom, _⟩ | ⟨hwrap, _⟩
  · simp only [exec, execCallNnn, e, State.finish_error]
  · rw [State.advance_sp] at hroom; omega
  · rw [State.advance_policy, hp] at hwrap; cases hwrap

theorem exec_call_fault (hp : s.policy.stack = .fault) (hsp : s.sp.val < 16) :
    exec (.callNnn nnn) s = .next (s.afterCall nnn (s.sp.val + 1)) := by
  rcases s.advance.push_cases s.advance.pc with ⟨_, hfull, _⟩ | ⟨_, _, e⟩ | ⟨hwrap, _⟩
  · rw [State.advance_sp] at hfull; omega
  · simp only [exec, execCallNnn, e, State.finish_ok]; rfl
  · rw [State.advance_policy, hp] at hwrap; cases hwrap

theorem exec_call_wrap (hp : s.policy.stack = .wrap) :
    exec (.callNnn nnn) s = .next (s.afterCall nnn ((s.sp.val + 1) % 16)) := by
  rcases s.advance.push_cases s.advance.pc with ⟨hfault, _, _⟩ | ⟨hfault, _, _⟩ | ⟨_, e⟩
  · rw [State.advance_policy, hp] at hfault; cases hfault
  · rw [State.advance_policy, hp] at hfault; cases hfault
  · simp only [exec, execCallNnn, e, State.finish_ok]; rfl

/-- What a completing CALL says of the state it leaves, with its frame. -/
theorem call_answers {n : Nat} (hn : n ≤ 16) (hcall : exec (.callNnn nnn) s = .next (s.afterCall nnn n)) :
    ∃ t, exec (.callNnn nnn) s = .next t ∧ t.pc.toNat = nnn.toNat ∧ t.sp.val = n ∧
      (∀ k : Fin 16, k.val = s.sp.val % 16 → t.stack[k] = s.pc + 2) ∧
      OnlySlots (fun k => k.val = s.sp.val % 16) s t :=
  ⟨_, hcall, addrOf_toNat nnn, Nat.mod_eq_of_lt (by omega),
    fun k hk => (s.afterCall_stack nnn n k).trans (if_pos hk),
    fun _ _ => rfl, rfl, fun k hk => (s.afterCall_stack nnn n k).trans (if_neg hk), ⟨rfl, rfl⟩, fun _ _ => rfl,
    fun _ _ => rfl, rfl, rfl, rfl, rfl, rfl, rfl⟩

end

/-- Settles O2: the overflow, the push under FAULT, where SP is itself a slot, and the push under WRAP. -/
theorem callPushesReturnAddress : Obligations.CallPushesReturnAddress := by
  unfold Obligations.CallPushesReturnAddress
  refine ⟨decodes_row (.callNnn 0), fun nnn s => ⟨fun hp hsp => ?_, fun hp hsp => ?_, fun hp => ?_⟩⟩
  · exact ⟨_, exec_call_overflow nnn hp hsp, faultsWith_raise s _ _⟩
  · have h := call_answers nnn (by omega) (exec_call_fault nnn hp hsp)
    rwa [Nat.mod_eq_of_lt hsp] at h
  · exact call_answers nnn (by omega) (exec_call_wrap nnn hp)

/-! ### CALL, then RET (R214) -/

/-- A RET to the depth before a CALL, on the stack that CALL left, undoes it. -/
theorem afterRet_of_afterCall {s u : State} {nnn : Addr12} {n : Nat}
    (hstack : u.stack = (s.afterCall nnn n).stack) :
    (u.afterRet s.sp.val).pc = s.pc + 2 ∧ (u.afterRet s.sp.val).sp = s.sp := by
  refine ⟨?_, Fin.ext (Nat.mod_eq_of_lt s.sp.isLt)⟩
  change u.stack[slot s.sp.val] = s.pc + 2
  rw [hstack]
  exact (s.afterCall_stack nnn n _).trans (if_pos rfl)

/-- Settles O7: under either policy the RET's depth is the one before the CALL. -/
theorem callThenReturn : Obligations.CallThenReturn := by
  unfold Obligations.CallThenReturn
  intro nnn s hsp
  cases hp : s.policy.stack with
  | fault =>
    refine ⟨_, exec_call_fault nnn hp (by omega), fun u hpolicy hdepth hstack => ?_⟩
    have hu : u.sp.val = s.sp.val + 1 := by
      rw [hdepth]; exact Nat.mod_eq_of_lt (by omega)
    have hret := exec_ret_fault (s := u) (by rw [hpolicy]; exact hp) (by omega)
    rw [hu, Nat.add_sub_cancel] at hret
    exact ⟨_, hret, afterRet_of_afterCall hstack⟩
  | wrap =>
    refine ⟨_, exec_call_wrap nnn hp, fun u hpolicy hdepth hstack => ?_⟩
    have hu : u.sp.val = (s.sp.val + 1) % 16 := by
      rw [hdepth]; exact Nat.mod_eq_of_lt (by omega)
    have hret := exec_ret_wrap (s := u) (by rw [hpolicy]; exact hp)
    have hback : ((s.sp.val + 1) % 16 + 15) % 16 = s.sp.val := by omega
    rw [hu, hback] at hret
    exact ⟨_, hret, afterRet_of_afterCall hstack⟩

end Sys2Proof.Machine
end

section
/-! Fetch, execution and faults along the step (40_control_flow.md R200 to R204). -/

namespace Sys2Proof.Machine

/-! ### Execution answers -/

/-- Settles O49: a form that can fault answers by the step's end, the others outright. -/
theorem execAlwaysAnswers : Obligations.ExecAlwaysAnswers := by
  unfold Obligations.ExecAlwaysAnswers
  intro i s
  cases i with
  | ret | callNnn _ | drwVxVyN _ _ _ | skpVx _ | sknpVx _ | ldBVx _ | ldMemVx _ | ldVxMem _ =>
    exact s.finish_next _
  | _ => exact ⟨_, rfl⟩

/-! ### Fetch faults (R201, R202) -/

theorem cpuStep_of_fetch_error {s : State} {trap : Trap} (h : s.fetch = .error trap) :
    cpuStep s = .next (s.raise trap) := by
  simp only [cpuStep, h]

theorem cpuStep_of_decode {s : State} {w : Word} {i : Instr} (hf : s.fetch = .ok w)
    (hd : decodeWord w = .ok i) : cpuStep s = exec i s := by
  simp only [cpuStep, hf, hd]

theorem State.fetch_odd {s : State} (h : s.pc.toNat % 2 = 1) :
    s.fetch = .error ⟨.invalidAddress, s.pc.toNat⟩ :=
  if_pos h

theorem State.fetch_beyond {s : State} (heven : s.pc.toNat % 2 = 0) (h : 0xFFE < s.pc.toNat) :
    s.fetch = .error ⟨.memoryOutOfRange, s.pc.toNat⟩ :=
  (if_neg (by omega)).trans (if_pos h)

/-- Settles O48: the second check of the fetch. -/
theorem fetchBeyondMemoryFaults : Obligations.FetchBeyondMemoryFaults := by
  unfold Obligations.FetchBeyondMemoryFaults
  exact fun s heven h => ⟨_, cpuStep_of_fetch_error (State.fetch_beyond heven h), faultsWith_raise s _ _⟩

/-- 2 more keeps the parity of PC, a wrap included. -/
theorem pc_add_two_parity (pc : Word) : (pc + 2).toNat % 2 = pc.toNat % 2 := by bv_omega

/-- From an even PC and even return addresses, PC stays even but for the forms that carry a target (R201). -/
theorem Effect.pc_even_or_jump {i : Instr} {s t : State} (he : Effect i s t) (hstack : s.StackAligned)
    (heven : s.pc.toNat % 2 = 0) :
    t.pc.toNat % 2 = 0 ∨ (∃ nnn, i = .jpNnn nnn) ∨ (∃ nnn, i = .callNnn nnn) ∨ ∃ nnn, i = .jpV0Nnn nnn := by
  rcases he.pc with e | e | e | ⟨_, hform⟩ | ⟨k, e⟩
  case inr.inr.inr.inl => exact .inr hform
  all_goals
    left
    rw [e]
  · rw [pc_add_two_parity, heven]
  · rw [pc_add_two_parity, pc_add_two_parity, heven]
  · rw [BitVec.add_sub_cancel, heven]
  · exact (hstack k).1

/-- Settles O47: a fault leaves PC, and an effect moves an even PC to an odd one only by a target. -/
theorem oddPcFaultsAtFetch : Obligations.OddPcFaultsAtFetch := by
  unfold Obligations.OddPcFaultsAtFetch
  refine ⟨fun s hodd => ⟨_, cpuStep_of_fetch_error (State.fetch_odd hodd), faultsWith_raise s _ _⟩, ?_⟩
  intro i s t hstack heven hexec hodd
  rcases exec_cases i s t hexec with ⟨c, n, rfl, _⟩ | he
  · rw [State.raise_pc] at hodd; omega
  · exact (he.pc_even_or_jump hstack heven).resolve_left (by omega)

/-! ### The step of a decoded instruction (R200, R203, R603) -/

/-- The fetched word is the one whose number R83 gives. -/
theorem State.fetch_of_toNat {s : State} {w : Word} (heven : s.pc.toNat % 2 = 0) (hle : s.pc.toNat ≤ 0xFFE)
    (hw : w.toNat = (s.mem.read s.pc.toNat).toNat * 256 + (s.mem.read (s.pc.toNat + 1)).toNat) :
    s.fetch = .ok w := by
  obtain ⟨w', hf, hw'⟩ := State.fetch_ok_toNat heven hle
  rw [hf, BitVec.eq_of_toNat_eq (hw'.trans hw.symm)]

theorem step_of_iteration {s : State} {keysIn : Keys} {tick : Bool} {rnd : Byte} {rest : List HostEvent}
    (hrun : s.status = .running) (he : s.events = .iteration keysIn tick rnd :: rest) :
    step s = ({ s with events := rest } : State).iterate keysIn tick rnd := by
  simp only [step_of_running hrun, State.turn, he]

theorem step_of_no_events {s : State} (hrun : s.status = .running) (he : s.events = []) :
    step s = ({ s with draws := s.draws + 1 } : State).iterate (Config.freeKeys s.draws)
      (Config.freeTick s.draws) (Config.freeRnd s.draws) := by
  simp only [step_of_running hrun, State.turn, he]

/-- An iteration at a word that decodes: execution on the polled state, then the tick. -/
theorem iterate_of_decode {s u : State} {w : Word} {i : Instr} {keysIn : Keys} {tick : Bool} {rnd : Byte}
    (hf : s.fetch = .ok w) (hd : decodeWord w = .ok i) (hexec : exec i (s.poll keysIn rnd) = .next u) :
    s.iterate keysIn tick rnd = .next (u.tickIf tick) :=
  iterate_next_iff.mpr ⟨u, (cpuStep_of_decode (s := s.poll keysIn rnd) hf hd).trans hexec, rfl⟩

/-- Settles O46: the fetch reads neither the events nor the count of draws. -/
theorem stepRunsDecodedInstruction : Obligations.StepRunsDecodedInstruction := by
  unfold Obligations.StepRunsDecodedInstruction
  intro s u i w hrun heven hle hw _ hd
  have hf : s.fetch = .ok w := State.fetch_of_toNat heven hle hw
  refine ⟨fun keysIn tick rnd rest he hexec => ?_, fun he hexec => ?_⟩
  · rw [step_of_iteration hrun he]
    exact iterate_of_decode hf hd hexec
  · rw [step_of_no_events hrun he]
    exact iterate_of_decode hf hd hexec

/-! ### Precise faults (R204) -/

/-- A machine that does not run does not tick (R349). -/
theorem State.tickIf_of_not_running {s : State} (h : s.status ≠ .running) (tick : Bool) : s.tickIf tick = s := by
  simp [State.tickIf, h]

/-- A CPU step ends the run only by raising a fault. -/
theorem cpuStep_ends_by_raise {s t : State} (hrun : s.status = .running) (h : cpuStep s = .next t)
    (hend : t.status ≠ .running) : ∃ trap, t = s.raise trap := by
  rcases cpuStep_cases h with hraise | ⟨_, _, _, _, he⟩ | ⟨_, _, _, _, _, rfl⟩
  · exact hraise
  · obtain ⟨hstatus, _⟩ := he.run
    exact absurd (hstatus.trans hrun) hend
  · exact absurd hrun hend

/-- Settles O50: the CPU step raised a fault on the polled state, and neither the tick nor a later step acts on
a machine that does not run. -/
theorem faultsArePrecise : Obligations.FaultsArePrecise := by
  unfold Obligations.FaultsArePrecise
  intro s t keysIn tick rnd hrun hit hend
  refine ⟨?_, fun u hstep => hend (status_of_step_next hstep)⟩
  obtain ⟨u, hu, rfl⟩ := iterate_next_iff.mp hit
  rw [State.tickIf_status] at hend
  rw [State.tickIf_of_not_running hend]
  obtain ⟨⟨code, info⟩, rfl⟩ := cpuStep_ends_by_raise (s := s.poll keysIn rnd) hrun hu hend
  exact ⟨code, info, rfl⟩

end Sys2Proof.Machine
end

section
/-! Register loads, arithmetic, logic and RND (41_alu.md R252 to R263). Every form here writes Vx alone, or Vx and
VF, and goes on to the next instruction; SUB, SUBN, SHR and SHL share one account of the order in which the flag
and the result are written (R251). -/

namespace Sys2Proof.Machine

/-! ### The bytes as numbers (R250) -/

theorem flagByte_toNat (c : Prop) [Decidable c] : (flagByte (decide c)).toNat = if c then 1 else 0 := by
  by_cases h : c <;> simp [flagByte, h]

theorem carryFlag_toNat (a b : Byte) :
    (carryFlag a b).toNat = if a.toNat + b.toNat > 255 then 1 else 0 := flagByte_toNat _

theorem noBorrowFlag_toNat (a b : Byte) : (noBorrowFlag a b).toNat = noBorrow a.toNat b.toNat := flagByte_toNat _

theorem lowBitFlag_toNat (a : Byte) : (lowBitFlag a).toNat = a.toNat % 2 :=
  Nat.mod_eq_of_lt (by omega)

theorem highBitFlag_toNat (a : Byte) : (highBitFlag a).toNat = a.toNat / 128 :=
  Nat.mod_eq_of_lt (by omega)

theorem sumByte_toNat (a b : Byte) : (sumByte a b).toNat = (a.toNat + b.toNat) % 256 := BitVec.toNat_add a b

theorem differenceByte_toNat (a b : Byte) : (differenceByte a b).toNat = sub256 a.toNat b.toNat := by
  rw [differenceByte, BitVec.toNat_sub, sub256]
  omega

theorem halfByte_toNat (a : Byte) : (halfByte a).toNat = a.toNat / 2 :=
  Nat.mod_eq_of_lt (by omega)

theorem doubleByte_toNat (a : Byte) : (doubleByte a).toNat = a.toNat * 2 % 256 := BitVec.toNat_ofNat _ _

theorem sub256_self (k : Nat) : sub256 k k = 0 := by
  rw [sub256, Nat.add_sub_cancel_left, Nat.mod_self]

/-! ### What a form that writes registers leaves unchanged -/

/-- After the advance and a change of general registers alone, the frame is left to the registers. -/
theorem onlyRegs_of_advance {P : Reg → Prop} {s t : State} (ht : ∃ w, t = { s.advance with v := w })
    (hregs : KeepsRegs P s t) : OnlyRegs P s t := by
  obtain ⟨w, rfl⟩ := ht
  exact ⟨hregs, rfl, ⟨rfl, fun _ => rfl⟩, ⟨rfl, rfl⟩, fun _ _ => rfl, fun _ _ => rfl, rfl, rfl, rfl, rfl, rfl, rfl⟩

/-- A form that writes the byte `b` to Vx: Vx has whatever `b` has. -/
theorem setV_answers (s : State) (x : Reg) {b : Byte} (p : Byte → Prop) (hb : p b) :
    ∃ t, (.next (s.advance.setV x b) : Result) = .next t ∧ p (t.getV x) ∧ t.pc = s.pc + 2 ∧
      OnlyRegs (· = x) s t :=
  ⟨_, rfl, by rwa [State.getV_setV_same], rfl,
    onlyRegs_of_advance ⟨_, rfl⟩ fun _ hr => State.getV_setV_ne _ b hr⟩

/-! ### Loads, logic and RND (R252 to R257, R263) -/

/-- Settles O8. -/
theorem loadImmediate : Obligations.LoadImmediate := by
  unfold Obligations.LoadImmediate
  exact ⟨decodes_row (.ldVxKk 0 0), fun x kk s => setV_answers s x (· = kk) rfl⟩

/-- Settles O9: the sum is the only write, so VF is written only as Vx. -/
theorem addImmediateNoFlag : Obligations.AddImmediateNoFlag := by
  unfold Obligations.AddImmediateNoFlag
  exact ⟨decodes_row (.addVxKk 0 0), fun x kk s =>
    setV_answers s x (·.toNat = ((s.getV x).toNat + kk.toNat) % 256) (sumByte_toNat _ _)⟩

/-- Settles O10. -/
theorem copyRegister : Obligations.CopyRegister := by
  unfold Obligations.CopyRegister
  exact ⟨decodes_row (.ldVxVy 0 0), fun x y s => setV_answers s x (· = s.getV y) rfl⟩

/-- Settles O11: the three operations are bitwise, and each writes Vx alone. -/
theorem logicBitwise : Obligations.LogicBitwise := by
  unfold Obligations.LogicBitwise
  refine ⟨decodes_row (.orVxVy 0 0), decodes_row (.andVxVy 0 0), decodes_row (.xorVxVy 0 0),
    fun x y s => ⟨?_, ?_, ?_⟩⟩
  · exact setV_answers s x (fun v => ∀ b < 8, v.getLsbD b = ((s.getV x).getLsbD b || (s.getV y).getLsbD b))
      fun _ _ => BitVec.getLsbD_or
  · exact setV_answers s x (fun v => ∀ b < 8, v.getLsbD b = ((s.getV x).getLsbD b && (s.getV y).getLsbD b))
      fun _ _ => BitVec.getLsbD_and
  · exact setV_answers s x (fun v => ∀ b < 8, v.getLsbD b = ((s.getV x).getLsbD b != (s.getV y).getLsbD b))
      fun _ _ => BitVec.getLsbD_xor

/-- Settles O17: the poll of the iteration puts the draw where RND reads it. -/
theorem rndMasksTheDraw : Obligations.RndMasksTheDraw := by
  unfold Obligations.RndMasksTheDraw
  refine ⟨decodes_row (.rndVxKk 0 0), fun x kk s => ?_, fun x kk s w keysIn tick rnd hf hd => ?_⟩
  · exact setV_answers s x (fun v => ∀ b < 8, v.getLsbD b = (s.rnd.getLsbD b && kk.getLsbD b))
      fun _ _ => BitVec.getLsbD_and
  · exact ⟨_, iterate_of_decode hf hd rfl, State.getV_setV_same (s.poll keysIn rnd).advance x (rnd &&& kk)⟩

/-! ### ADD Vx,Vy (R258) -/

/-- Settles O12: the carry is written last, so with x = F it is what stays. -/
theorem addSetsCarry : Obligations.AddSetsCarry := by
  unfold Obligations.AddSetsCarry
  refine ⟨decodes_row (.addVxVy 0 0), fun x y s => ⟨_, rfl, fun (hx : x ≠ vf) => ?_, ?_, rfl, ?_⟩⟩
  · rw [State.getV_setV_ne _ _ hx, State.getV_setV_same, sumByte_toNat]
  · exact (congrArg BitVec.toNat (State.getV_setV_same _ vf _)).trans (carryFlag_toNat _ _)
  · refine onlyRegs_of_advance ⟨_, rfl⟩ fun r hr => ?_
    obtain ⟨hrx, (hrF : r ≠ vf)⟩ := not_or.mp hr
    rw [State.getV_setV_ne _ _ hrF, State.getV_setV_ne _ _ hrx, State.advance_getV]

/-! ### Flag and result, when VF is an operand (R251) -/

section
variable (s : State) (x y : Reg) (f r : Byte → Byte → Byte)

/-- The flag stands in VF unless the result overwrites it: x = F under SEQUENTIAL. -/
theorem State.flagAndResult_getV_vf (h : s.policy.aliasing = .flagLast ∨ x ≠ vf) :
    (s.flagAndResult x y f r).getV vf = f (s.getV x) (s.getV y) := by
  cases hm : s.policy.aliasing with
  | sequential =>
    have hx : x ≠ vf := h.resolve_left (by simp [hm])
    rw [s.flagAndResult_sequential x y f r hm, getV_setV_ne _ _ hx.symm, getV_setV_same]
  | flagLast => rw [s.flagAndResult_flagLast x y f r hm, getV_setV_same]

/-- Under SEQUENTIAL the result reads the flag where it reads VF. -/
theorem State.flagAndResult_getV_sequential (h : s.policy.aliasing = .sequential) :
    (s.flagAndResult x y f r).getV x =
      r (if x = vf then f (s.getV x) (s.getV y) else s.getV x)
        (if y = vf then f (s.getV x) (s.getV y) else s.getV y) := by
  rw [s.flagAndResult_sequential x y f r h, getV_setV_same, getV_setV, getV_setV]

/-- Under FLAG_LAST the result in Vx, not VF, is of the old values. -/
theorem State.flagAndResult_getV_flagLast (h : s.policy.aliasing = .flagLast) (hx : x ≠ vf) :
    (s.flagAndResult x y f r).getV x = r (s.getV x) (s.getV y) := by
  rw [s.flagAndResult_flagLast x y f r h, getV_setV_ne _ _ hx, getV_setV_same]

/-- Without VF among the operands the two modes agree. -/
theorem State.flagAndResult_getV_of_ne (hx : x ≠ vf) (hy : y ≠ vf) :
    (s.flagAndResult x y f r).getV x = r (s.getV x) (s.getV y) := by
  cases hm : s.policy.aliasing with
  | sequential => rw [s.flagAndResult_getV_sequential x y f r hm, if_neg hx, if_neg hy]
  | flagLast => exact s.flagAndResult_getV_flagLast x y f r hm hx

end

/-- What SUB, SUBN, SHR and SHL answer in every aliasing of VF under both modes, in numbers: `fN` is the flag and
`rN` the result. -/
theorem flagAndResult_answers {f r : Byte → Byte → Byte} (fN rN : Nat → Nat → Nat)
    (hf : ∀ a b, (f a b).toNat = fN a.toNat b.toNat) (hr : ∀ a b, (r a b).toNat = rN a.toNat b.toNat)
    (s : State) (x y : Reg) {vx vy : Nat} (hvx : vx = (s.getV x).toNat) (hvy : vy = (s.getV y).toNat) :
    ∃ t, (.next (s.advance.flagAndResult x y f r) : Result) = .next t ∧ t.pc = s.pc + 2 ∧
      OnlyRegs (fun q => q = x ∨ q = 15) s t ∧
      (x ≠ 15 → (t.getV 15).toNat = fN vx vy) ∧
      (x ≠ 15 → y ≠ 15 → (t.getV x).toNat = rN vx vy) ∧
      (s.policy.aliasing = .sequential → x ≠ 15 → y = 15 → (t.getV x).toNat = rN vx (fN vx vy)) ∧
      (s.policy.aliasing = .sequential → x = 15 → y ≠ 15 → (t.getV 15).toNat = rN (fN vx vy) vy) ∧
      (s.policy.aliasing = .sequential → x = 15 → y = 15 →
        (t.getV 15).toNat = rN (fN vx vy) (fN vx vy)) ∧
      (s.policy.aliasing = .flagLast → x ≠ 15 → y = 15 → (t.getV x).toNat = rN vx vy) ∧
      (s.policy.aliasing = .flagLast → x = 15 → (t.getV 15).toNat = fN vx vy) := by
  subst hvx hvy
  obtain ⟨w, hw⟩ := s.advance.flagAndResult_frame x y f r
  have hsequential := s.advance.flagAndResult_getV_sequential x y f r
  simp only [← hf, ← hr]
  refine ⟨_, rfl, by rw [hw]; rfl, ?_, fun hx => ?_, fun hx hy => ?_,
    fun hm (hx : x ≠ vf) (hy : y = vf) => ?_, fun hm (hx : x = vf) (hy : y ≠ vf) => ?_,
    fun hm (hx : x = vf) (hy : y = vf) => ?_, fun hm hx _ => ?_, fun hm _ => ?_⟩
  · refine onlyRegs_of_advance ⟨w, hw⟩ fun q hq => ?_
    obtain ⟨hqx, hqF⟩ := not_or.mp hq
    exact s.advance.flagAndResult_getV_ne x y f r q hqx hqF
  · exact congrArg _ (s.advance.flagAndResult_getV_vf x y f r (.inr hx))
  · exact congrArg _ (s.advance.flagAndResult_getV_of_ne x y f r hx hy)
  · have h := hsequential hm
    rw [if_neg hx, if_pos hy] at h
    exact congrArg _ h
  · have h := hsequential hm
    rw [if_pos hx, if_neg hy] at h
    exact congrArg _ (hx ▸ h)
  · have h := hsequential hm
    rw [if_pos hx, if_pos hy] at h
    exact congrArg _ (hx ▸ h)
  · exact congrArg _ (s.advance.flagAndResult_getV_flagLast x y f r hm hx)
  · exact congrArg _ (s.advance.flagAndResult_getV_vf x y f r (.inl hm))

/-! ### SUB, SUBN, SHR and SHL (R259 to R262) -/

/-- Settles O13: with x = y = F under SEQUENTIAL the flag is subtracted from itself. -/
theorem subSetsNoBorrow : Obligations.SubSetsNoBorrow := by
  unfold Obligations.SubSetsNoBorrow
  refine ⟨decodes_row (.subVxVy 0 0), fun x y s vx vy hvx hvy => ?_⟩
  have h := flagAndResult_answers noBorrow sub256 noBorrowFlag_toNat differenceByte_toNat s x y hvx hvy
  simp only [sub256_self] at h
  exact h

/-- Settles O14: as O13, with the operands of the flag and of the difference exchanged. -/
theorem subnSetsNoBorrow : Obligations.SubnSetsNoBorrow := by
  unfold Obligations.SubnSetsNoBorrow
  refine ⟨decodes_row (.subnVxVy 0 0), fun x y s vx vy hvx hvy => ?_⟩
  have h := flagAndResult_answers (fun a b => noBorrow b a) (fun a b => sub256 b a)
    (fun a b => noBorrowFlag_toNat b a) (fun a b => differenceByte_toNat b a) s x y hvx hvy
  simp only [sub256_self] at h
  exact h

/-- Settles O15: with x = F under SEQUENTIAL the flag, 0 or 1, is halved. -/
theorem shrShiftsOutLowBit : Obligations.ShrShiftsOutLowBit := by
  unfold Obligations.ShrShiftsOutLowBit
  refine ⟨decodes_row (.shrVx 0), fun x s => ?_⟩
  obtain ⟨t, hexec, hpc, hframe, hflag, hresult, _, _, hF, _, hlastFlag⟩ :=
    flagAndResult_answers (fun a _ => a % 2) (fun a _ => a / 2) (fun a _ => lowBitFlag_toNat a)
      (fun a _ => halfByte_toNat a) s x x rfl rfl
  exact ⟨t, hexec, hpc, hframe, fun hx => ⟨hresult hx hx, hflag hx⟩,
    fun hm hx => (hF hm hx hx).trans (Nat.div_eq_of_lt (Nat.mod_lt _ Nat.two_pos)), hlastFlag⟩

/-- Settles O16: with x = F under SEQUENTIAL the flag, 0 or 1, is doubled. -/
theorem shlShiftsOutHighBit : Obligations.ShlShiftsOutHighBit := by
  unfold Obligations.ShlShiftsOutHighBit
  refine ⟨decodes_row (.shlVx 0), fun x s => ?_⟩
  obtain ⟨t, hexec, hpc, hframe, hflag, hresult, _, _, hF, _, hlastFlag⟩ :=
    flagAndResult_answers (fun a _ => a / 128) (fun a _ => a * 2 % 256) (fun a _ => highBitFlag_toNat a)
      (fun a _ => doubleByte_toNat a) s x x rfl rfl
  have hdouble : (s.getV x).toNat / 128 * 2 % 256 = 2 * ((s.getV x).toNat / 128) := by omega
  exact ⟨t, hexec, hpc, hframe, fun hx => ⟨hresult hx hx, hflag hx⟩, fun hm hx => (hF hm hx hx).trans hdouble,
    hlastFlag⟩

end Sys2Proof.Machine
end

section
/-! The display family (42_display.md R301 to R304). The pixels of one sprite stand on distinct cells, so what a DRW
does to the grid is what each of its set bits does alone; a second DRW of the same sprite undoes the first. -/

namespace Sys2Proof.Machine

/-- After the advance and changes of the display and of general registers alone, the frame is left to the registers. -/
theorem onlyDisplay_of_advance {P : Reg → Prop} {s t : State}
    (ht : ∃ d w, t = { s.advance with disp := d, v := w }) (hregs : KeepsRegs P s t) : OnlyDisplay P s t := by
  obtain ⟨d, w, rfl⟩ := ht
  exact ⟨hregs, rfl, ⟨rfl, fun _ => rfl⟩, ⟨rfl, rfl⟩, fun _ _ => rfl, rfl, rfl, rfl, rfl, rfl, rfl⟩

/-- Settles O18. -/
theorem clsClearsEveryCell : Obligations.ClsClearsEveryCell := by
  unfold Obligations.ClsClearsEveryCell
  exact ⟨decodes_row .cls, fun s =>
    ⟨_, rfl, Display.pixel_off, rfl, onlyDisplay_of_advance ⟨_, s.v, rfl⟩ fun _ _ => rfl⟩⟩

/-! ### The cell of a pixel (R302, R303) -/

theorem spriteCell_clip_eq_some {px py : Nat} {cx : Fin 64} {cy : Fin 32} :
    spriteCell .clip px py = some (cx, cy) ↔ px = cx.val ∧ py = cy.val := by
  unfold spriteCell
  by_cases h : px > 63 ∨ py > 31
  · simp only [if_pos h, reduceCtorEq, false_iff]; omega
  · simp only [if_neg h, Option.some.injEq, Prod.mk.injEq, Fin.ext_iff, Fin.ofNat]; omega

theorem spriteCell_wrap_eq_some {px py : Nat} {cx : Fin 64} {cy : Fin 32} :
    spriteCell .wrap px py = some (cx, cy) ↔ px % 64 = cx.val ∧ py % 32 = cy.val := by
  simp only [spriteCell, Option.some.injEq, Prod.mk.injEq, Fin.ext_iff, Fin.ofNat]

/-- Pixels less than the grid's width and height apart stand on distinct cells, even when they wrap. -/
theorem spriteCell_injective {edge : Config.SpriteEdge} {xc yc c c' r r' : Nat} {cell : Fin 64 × Fin 32}
    (hc : c < 64) (hc' : c' < 64) (hr : r < 32) (hr' : r' < 32)
    (h : spriteCell edge (xc + c) (yc + r) = some cell) (h' : spriteCell edge (xc + c') (yc + r') = some cell) :
    c = c' ∧ r = r' := by
  cases edge with
  | clip => rw [spriteCell_clip_eq_some] at h h'; omega
  | wrap => rw [spriteCell_wrap_eq_some] at h h'; omega

/-! ### The sites of a sprite -/

theorem rowSites_nodup (xc py : Nat) (b : Byte) : (rowSites xc py b).Nodup :=
  (List.nodup_range.filter _).map fun _ _ h => by simpa using h

theorem spriteSites_nodup (xc yc : Nat) (bs : List Byte) : (spriteSites xc yc bs).Nodup := by
  induction bs generalizing yc with
  | nil => exact List.nodup_nil
  | cons b bs ih =>
    refine (rowSites_nodup xc yc b).append (ih (yc + 1)) fun p hrow hrest => ?_
    obtain ⟨c, _, rfl⟩ := List.mem_map.mp hrow
    obtain ⟨r, _, _, _, _, heq⟩ := (mem_spriteSites _ _ _ _).mp hrest
    have : yc = yc + 1 + r := congrArg Prod.snd heq
    omega

/-- A sprite of at most 32 rows has its sites on distinct cells: the premise of `drawPixels_spec`. -/
theorem spriteSites_pairwise (edge : Config.SpriteEdge) (xc yc : Nat) {bs : List Byte} (hlen : bs.length ≤ 32) :
    (spriteSites xc yc bs).Pairwise fun p q =>
      ∀ c, spriteCell edge p.1 p.2 = some c → spriteCell edge q.1 q.2 ≠ some c := by
  refine (spriteSites_nodup xc yc bs).pairwise_of_forall_ne fun p hp q hq hne cell hcell hcell' => hne ?_
  obtain ⟨r, c, hr, hc, _, rfl⟩ := (mem_spriteSites _ _ _ _).mp hp
  obtain ⟨r', c', hr', hc', _, rfl⟩ := (mem_spriteSites _ _ _ _).mp hq
  obtain ⟨rfl, rfl⟩ := spriteCell_injective (by omega) (by omega) (by omega) (by omega) hcell hcell'
  rfl

/-! ### What DRW draws (R302) -/

/-- The bytes of an `n`-row sprite at I. -/
def State.spriteRows (s : State) (n : Fin 16) : List Byte := (List.range n.val).map fun r => s.mem.read (s.base + r)

/-- The set bits of the sprite a DRW begun at `s` draws. -/
def State.drwSites (s : State) (x y : Reg) (n : Fin 16) : List (Nat × Nat) :=
  spriteSites (baseColumn (s.getV x)) (baseRow (s.getV y)) (s.spriteRows n)

/-- The display and the collision a DRW begun at `s` leaves. -/
def State.drawn (s : State) (x y : Reg) (n : Fin 16) : Display × Bool :=
  drawRows s.policy.edge (baseColumn (s.getV x)) (baseRow (s.getV y)) (s.spriteRows n) (s.disp, false)

/-- The state a DRW begun at `s` leaves when it does not fault. -/
def State.afterDrw (s : State) (x y : Reg) (n : Fin 16) : State :=
  { s.advance with disp := (s.drawn x y n).1 }.setV vf (flagByte (s.drawn x y n).2)

section
variable (s : State) (x y : Reg) (n : Fin 16)

theorem State.spriteRows_length : (s.spriteRows n).length = n.val := by simp [State.spriteRows]

theorem State.spriteRows_getD {r : Nat} (hr : r < n.val) :
    (s.spriteRows n).getD r 0 = s.mem.read (s.i.toNat + r) := by
  simp [State.spriteRows, State.base, List.getD_eq_getElem?_getD, hr]

/-- The sites are the set bits of the sprite's rows. -/
theorem exists_drwSite_iff (P : Nat × Nat → Prop) :
    (∃ p ∈ s.drwSites x y n, P p) ↔
      ∃ r c, r < n.val ∧ c < 8 ∧ SpriteBit s r c ∧ P (baseColumn (s.getV x) + c, baseRow (s.getV y) + r) := by
  unfold State.drwSites
  constructor
  · rintro ⟨p, hp, hP⟩
    obtain ⟨r, c, hr, hc, hbit, rfl⟩ := (mem_spriteSites _ _ _ _).mp hp
    rw [s.spriteRows_length] at hr
    rw [s.spriteRows_getD n hr] at hbit
    exact ⟨r, c, hr, hc, hbit, hP⟩
  · rintro ⟨r, c, hr, hc, hbit, hP⟩
    refine ⟨_, (mem_spriteSites _ _ _ _).mpr ⟨r, c, ?_, hc, ?_, rfl⟩, hP⟩
    · rwa [s.spriteRows_length]
    · rwa [s.spriteRows_getD n hr]

/-- The cells a DRW hits are those its sites stand on. -/
theorem spriteHits_iff (px : Fin 64) (py : Fin 32) :
    SpriteHits s x y n px py ↔ ∃ p ∈ s.drwSites x y n, spriteCell s.policy.edge p.1 p.2 = some (px, py) := by
  rw [exists_drwSite_iff]
  unfold SpriteHits
  cases s.policy.edge with
  | clip => simp only [spriteCell_clip_eq_some, baseColumn, baseRow]
  | wrap => simp only [spriteCell_wrap_eq_some, baseColumn, baseRow]

/-- What the blit does, cell by cell, and when it collides (R302, R303). -/
theorem State.drawn_spec :
    (∀ px py, SpriteHits s x y n px py → (s.drawn x y n).1.pixel px py = !s.disp.pixel px py) ∧
    (∀ px py, ¬ SpriteHits s x y n px py → (s.drawn x y n).1.pixel px py = s.disp.pixel px py) ∧
    ((s.drawn x y n).2 = true ↔ ∃ px py, SpriteHits s x y n px py ∧ s.disp.pixel px py = true) := by
  have hrows : (s.spriteRows n).length ≤ 32 := by rw [s.spriteRows_length]; omega
  obtain ⟨hcells, hcollision⟩ := drawPixels_spec s.policy.edge (s.drwSites x y n) (s.disp, false)
    (spriteSites_pairwise s.policy.edge (baseColumn (s.getV x)) (baseRow (s.getV y)) hrows)
  unfold State.drawn
  rw [drawRows_eq]
  refine ⟨fun px py hit => ?_, fun px py miss => ?_, hcollision.trans ⟨?_, ?_⟩⟩
  · exact (hcells px py).trans (by rw [decide_eq_true ((spriteHits_iff s x y n px py).mp hit), Bool.xor_true])
  · exact (hcells px py).trans
      (by rw [decide_eq_false (mt (spriteHits_iff s x y n px py).mpr miss), Bool.xor_false])
  · rintro (hfalse | ⟨p, hp, cell, hcell, hon⟩)
    · exact absurd hfalse Bool.false_ne_true
    · exact ⟨cell.1, cell.2, (spriteHits_iff s x y n _ _).mpr ⟨p, hp, hcell⟩, hon⟩
  · rintro ⟨px, py, hit, hon⟩
    obtain ⟨p, hp, hcell⟩ := (spriteHits_iff s x y n px py).mp hit
    exact .inr ⟨p, hp, (px, py), hcell, hon⟩

/-- A DRW with every row readable does not fault. -/
theorem exec_drw_readable (h : ∀ r < n.val, s.i.toNat + r ≤ 0xFFF) :
    exec (.drwVxVyN x y n) s = .next (s.afterDrw x y n) := by
  have hread : s.memReads s.base n.val = .ok (s.spriteRows n) := s.memReads_ok s.base n.val h
  change execDrwVxVyN x y n s = _
  unfold execDrwVxVyN
  rw [hread]
  rfl

/-- Otherwise it faults at its first row outside memory. -/
theorem exec_drw_outOfRange {r : Nat} (hr : r < n.val) (hout : 0xFFF < s.i.toNat + r)
    (hlow : ∀ j < r, s.i.toNat + j ≤ 0xFFF) :
    exec (.drwVxVyN x y n) s = .next (s.raise ⟨.memoryOutOfRange, s.i.toNat + r⟩) := by
  have hread := s.memReads_error s.base n.val r hr hout hlow
  change execDrwVxVyN x y n s = _
  unfold execDrwVxVyN
  rw [hread]
  rfl

end

/-- What a DRW from `s` to `t` that completes has done (R302, R303). -/
structure DrawsSprite (s t : State) (x y : Reg) (n : Fin 16) : Prop where
  pc : t.pc = s.pc + 2
  frame : OnlyDisplay (· = 15) s t
  inverts : ∀ px py, SpriteHits s x y n px py → t.disp.pixel px py = !s.disp.pixel px py
  keeps : ∀ px py, ¬ SpriteHits s x y n px py → t.disp.pixel px py = s.disp.pixel px py
  collides : (∃ px py, SpriteHits s x y n px py ∧ s.disp.pixel px py = true) → t.getV 15 = 1
  clear : ¬ (∃ px py, SpriteHits s x y n px py ∧ s.disp.pixel px py = true) → t.getV 15 = 0

theorem drawsSprite_afterDrw (s : State) (x y : Reg) (n : Fin 16) : DrawsSprite s (s.afterDrw x y n) x y n := by
  obtain ⟨hinverts, hkeeps, hcollision⟩ := s.drawn_spec x y n
  have hvf : (s.afterDrw x y n).getV 15 = flagByte (s.drawn x y n).2 := State.getV_setV_same _ vf _
  exact {
    pc := rfl
    frame := onlyDisplay_of_advance ⟨_, _, rfl⟩ fun _ hr => State.getV_setV_ne _ _ hr
    inverts := hinverts
    keeps := hkeeps
    collides := fun h => by rw [hvf, hcollision.mpr h]; rfl
    clear := fun h => by rw [hvf, Bool.eq_false_iff.mpr (mt hcollision.mp h)]; rfl }

/-- Settles O19: the set bits of a sprite stand on distinct cells, so each inverts its own. -/
theorem drwXorsTheSprite : Obligations.DrwXorsTheSprite := by
  unfold Obligations.DrwXorsTheSprite
  refine ⟨decodes_row (.drwVxVyN 0 0 0), fun x y n s => ⟨fun hread => ?_, fun r hr hout hlow => ?_⟩⟩
  · have hd := drawsSprite_afterDrw s x y n
    exact ⟨_, exec_drw_readable s x y n hread, hd.pc, hd.frame, hd.inverts, hd.keeps, hd.collides, hd.clear⟩
  · exact ⟨_, exec_drw_outOfRange s x y n hr hout hlow, faultsWith_raise _ _ _⟩

/-! ### DRW twice (R304) -/

section
variable {s t u : State} {x y : Reg} {n : Fin 16}

/-- Which cells a DRW hits depends on nothing it writes, unless VF gives a coordinate. -/
theorem DrawsSprite.hits_iff (hd : DrawsSprite s t x y n) (hx : x ≠ 15) (hy : y ≠ 15) (px : Fin 64)
    (py : Fin 32) : SpriteHits t x y n px py ↔ SpriteHits s x y n px py := by
  obtain ⟨hregs, hi, _, _, hmem, _, _, hpolicy, _⟩ := hd.frame
  have hbit (r c : Nat) : SpriteBit t r c ↔ SpriteBit s r c := by
    rw [SpriteBit, SpriteBit, hi, hmem _ not_false]
  unfold SpriteHits
  simp only [hbit, hpolicy, hregs x hx, hregs y hy]

/-- A cell the first DRW hit is inverted back by the second. -/
theorem DrawsSprite.twice_restores (hd : DrawsSprite s t x y n) (hd' : DrawsSprite t u x y n) (hx : x ≠ 15)
    (hy : y ≠ 15) (px : Fin 64) (py : Fin 32) : u.disp.pixel px py = s.disp.pixel px py := by
  have hsame := hd.hits_iff hx hy px py
  by_cases hit : SpriteHits s x y n px py
  · rw [hd'.inverts px py (hsame.mpr hit), hd.inverts px py hit, Bool.not_not]
  · rw [hd'.keeps px py (mt hsame.mp hit), hd.keeps px py hit]

/-- The lit cells of the sprite after a DRW are the cells it turned on. -/
theorem DrawsSprite.lit_iff (hd : DrawsSprite s t x y n) (hx : x ≠ 15) (hy : y ≠ 15) (px : Fin 64) (py : Fin 32) :
    (SpriteHits t x y n px py ∧ t.disp.pixel px py = true) ↔
      (s.disp.pixel px py = false ∧ t.disp.pixel px py = true) := by
  rw [hd.hits_iff hx hy px py]
  by_cases hit : SpriteHits s x y n px py
  · simp [hit, hd.inverts px py hit]
  · simp [hit, hd.keeps px py hit]

theorem DrawsSprite.vf_eq_one_iff (hd : DrawsSprite s t x y n) :
    t.getV 15 = 1 ↔ ∃ px py, SpriteHits s x y n px py ∧ s.disp.pixel px py = true := by
  refine ⟨fun h => ?_, hd.collides⟩
  by_contra hno
  exact absurd ((hd.clear hno).symm.trans h) (by decide)

end

/-- Settles O20: the second DRW hits the cells of the first, and collides on those the first turned on. -/
theorem drwTwiceRestores : Obligations.DrwTwiceRestores := by
  unfold Obligations.DrwTwiceRestores
  intro x y n s hread hx hy
  have hd := drawsSprite_afterDrw s x y n
  have hd' := drawsSprite_afterDrw (s.afterDrw x y n) x y n
  refine ⟨_, _, exec_drw_readable s x y n hread, exec_drw_readable _ x y n hread, fun hoff => ?_,
    hd.twice_restores hd' hx hy, ?_⟩
  · refine hd.clear ?_
    rintro ⟨px, py, _, hon⟩
    exact absurd ((hoff px py).symm.trans hon) Bool.false_ne_true
  · rw [hd'.vf_eq_one_iff]
    simp only [hd.lit_iff hx hy]

end Sys2Proof.Machine
end

section
/-! The key and timer instructions (43_timers_keys.md R341 to R347) and the tick (R348, R349). A timer after `n`
iterations that load none has fallen by the number of ticks among them, as far as 0. -/

namespace Sys2Proof.Machine

/-! ### The key skips (R341 to R343) -/

section
variable {s : State} {x : Reg}

/-- An index that is in range or taken modulo 16 names the key of its low nibble. -/
theorem State.keyIndex_ok {b : Byte} (h : b.toNat ≤ 15 ∨ s.policy.keyIndex = .lowNibble) {k : Fin 16}
    (hk : k.val = b.toNat % 16) : s.keyIndex b = .ok k := by
  rcases s.keyIndex_cases b with ⟨j, hj, e⟩ | ⟨hb, hp, _⟩ | ⟨_, _, j, hj, e⟩
  · rw [e, Fin.ext (a := j) (b := k) (by omega)]
  · rcases h with hle | hlow
    · omega
    · rw [hp] at hlow; cases hlow
  · rw [e, Fin.ext (hj.trans hk.symm)]

theorem State.keyIndex_fault {b : Byte} (hb : 15 < b.toNat) (hp : s.policy.keyIndex = .fault) :
    s.keyIndex b = .error ⟨.invalidKeyIndex, b.toNat⟩ := by
  rcases s.keyIndex_cases b with ⟨j, hj, _⟩ | ⟨_, _, e⟩ | ⟨_, hlow, _⟩
  · omega
  · exact e
  · rw [hp] at hlow; cases hlow

theorem exec_skp_of_key {k : Fin 16} (h : s.keyIndex (s.getV x) = .ok k) :
    exec (.skpVx x) s = .next (s.advance.skipIf s.keys[k]) := by
  simp only [exec, execSkpVx, h, State.finish_ok]

theorem exec_sknp_of_key {k : Fin 16} (h : s.keyIndex (s.getV x) = .ok k) :
    exec (.sknpVx x) s = .next (s.advance.skipIf (!s.keys[k])) := by
  simp only [exec, execSknpVx, h, State.finish_ok]

theorem exec_skp_of_trap {trap : Trap} (h : s.keyIndex (s.getV x) = .error trap) :
    exec (.skpVx x) s = .next (s.raise trap) := by
  simp only [exec, execSkpVx, h, State.finish_error]

theorem exec_sknp_of_trap {trap : Trap} (h : s.keyIndex (s.getV x) = .error trap) :
    exec (.sknpVx x) s = .next (s.raise trap) := by
  simp only [exec, execSknpVx, h, State.finish_error]

end

/-- Settles O21: the key index names one key or faults, and both skips take it from there. -/
theorem keySkips : Obligations.KeySkips := by
  unfold Obligations.KeySkips
  refine ⟨decodes_row (.skpVx 0), decodes_row (.sknpVx 0), fun x s => ⟨fun h k hk => ?_, fun hb hp => ?_⟩⟩
  · have hkey := State.keyIndex_ok h hk
    refine ⟨⟨_, exec_skp_of_key hkey, s.skipIf_advance_pc _, onlyRegs_setPc s _⟩,
      ⟨_, exec_sknp_of_key hkey, ?_, onlyRegs_setPc s _⟩⟩
    rw [s.skipIf_advance_pc]
    cases s.keys[k] <;> rfl
  · have htrap := State.keyIndex_fault hb hp
    exact ⟨⟨_, exec_skp_of_trap htrap, faultsWith_raise s _ _⟩,
      ⟨_, exec_sknp_of_trap htrap, faultsWith_raise s _ _⟩⟩

/-! ### The key wait (R345) -/

/-- The rewind undoes the advance, a wrap of PC included. -/
@[simp] theorem State.rewind_advance (s : State) : s.advance.rewind = s := by
  simp only [State.rewind, State.advance, BitVec.add_sub_cancel]

theorem exec_ldVxK_of_no_key {s : State} (x : Reg) (h : lowestKey s.keys = none) :
    exec (.ldVxK x) s = .next s := by
  simp only [exec, execLdVxK, h, State.rewind_advance]

theorem exec_ldVxK_of_key {s : State} (x : Reg) {k : Fin 16} (h : lowestKey s.keys = some k) :
    exec (.ldVxK x) s = .next (s.advance.setV x (BitVec.ofNat 8 k.val)) := by
  simp only [exec, execLdVxK, h]

/-- Settles O22: a wait leaves the very state it began at. -/
theorem keyWait : Obligations.KeyWait := by
  unfold Obligations.KeyWait
  refine ⟨decodes_row (.ldVxK 0), fun x s => ⟨fun hnone => ?_, fun k hk hlower => ?_⟩⟩
  · exact ⟨s, exec_ldVxK_of_no_key x ((lowestKey_none s.keys).mpr hnone), rfl, onlyRegs_setPc s s.pc⟩
  · rw [exec_ldVxK_of_key x ((lowestKey_some s.keys k).mpr ⟨hk, hlower⟩)]
    exact setV_answers s x (·.toNat = k.val) (Nat.mod_eq_of_lt (by omega))

/-! ### The timer loads (R344, R346, R347) -/

/-- A change of PC and the timers alone. -/
theorem onlyTimers_set (s : State) (a : Word) (d e : Byte) : OnlyTimers s { s with pc := a, dt := d, st := e } :=
  ⟨fun _ _ => rfl, rfl, ⟨rfl, fun _ => rfl⟩, fun _ _ => rfl, fun _ _ => rfl, rfl, rfl, rfl, rfl, rfl, rfl⟩

/-- Settles O23. -/
theorem timerLoads : Obligations.TimerLoads := by
  unfold Obligations.TimerLoads
  refine ⟨decodes_row (.ldVxDt 0), decodes_row (.ldDtVx 0), decodes_row (.ldStVx 0), fun x s => ⟨?_, ?_, ?_⟩⟩
  · exact setV_answers s x (· = s.dt) rfl
  · exact ⟨_, rfl, rfl, rfl, rfl, onlyTimers_set s _ (s.getV x) s.st⟩
  · exact ⟨_, rfl, rfl, rfl, rfl, onlyTimers_set s _ s.dt (s.getV x)⟩

/-! ### The tick (R348, R349) -/

@[simp] theorem State.tickIf_false (s : State) : s.tickIf false = s := rfl

/-- A tick of a running machine is one decrement of both timers. -/
theorem State.tickIf_true_of_running {s : State} (h : s.status = .running) :
    s.tickIf true = { s with dt := tickDown s.dt, st := tickDown s.st } := by
  simp [State.tickIf, h]

/-- Settles O24: in a machine that is not running, or with no tick, `tickIf` is the identity. -/
theorem tickDecrementsBoth : Obligations.TickDecrementsBoth := by
  unfold Obligations.TickDecrementsBoth
  refine fun s tick => ⟨?_, ?_, onlyTimers_set s s.pc _ _, s.tickIf_pc tick⟩
  · rintro hrun rfl
    rw [State.tickIf_true_of_running hrun]
    exact ⟨tickDown_toNat s.dt, tickDown_toNat s.st⟩
  · rintro (hstopped | rfl)
    · exact State.tickIf_of_not_running hstopped tick
    · exact s.tickIf_false

/-! ### The timers under fair ticks (R608) -/

@[simp] theorem decay_status (ticks : Nat → Bool) (s : State) (n : Nat) : (decay ticks s n).status = s.status := by
  induction n with
  | zero => rfl
  | succ n ih => rw [decay, State.tickIf_status, ih]

/-- Both timers of a running machine have fallen by the number of ticks, or to 0. -/
theorem decay_timers_toNat (ticks : Nat → Bool) {s : State} (hrun : s.status = .running) (n : Nat) :
    (decay ticks s n).dt.toNat = s.dt.toNat - Nat.count (ticks · = true) n ∧
      (decay ticks s n).st.toNat = s.st.toNat - Nat.count (ticks · = true) n := by
  induction n with
  | zero => simp [decay]
  | succ n ih =>
    obtain ⟨hdt, hst⟩ := ih
    rw [decay, Nat.count_succ]
    cases ticks n with
    | false => simpa using ⟨hdt, hst⟩
    | true =>
      rw [State.tickIf_true_of_running ((decay_status ticks s n).trans hrun)]
      simp only [tickDown_toNat, hdt, hst, if_true, Nat.sub_sub, and_self]

theorem WeaklyFair.infinite {ticks : Nat → Bool} (h : WeaklyFair ticks) : {n | ticks n = true}.Infinite :=
  Nat.frequently_atTop_iff_infinite.mp (Filter.frequently_atTop.mpr h)

/-- Weakly fair ticks exceed any number. -/
theorem WeaklyFair.exists_le_count {ticks : Nat → Bool} (h : WeaklyFair ticks) (k : Nat) :
    ∃ n, ∀ m, n ≤ m → k ≤ Nat.count (ticks · = true) m :=
  ⟨Nat.nth (ticks · = true) k, fun _ hm =>
    (Nat.count_nth_of_infinite h.infinite k).symm.le.trans (Nat.count_monotone _ hm)⟩

/-- Settles O27: a timer holds at most 255, and fair ticks exceed 255. -/
theorem fairTicksReachZero : Obligations.FairTicksReachZero := by
  unfold Obligations.FairTicksReachZero
  intro ticks s hfair hrun
  obtain ⟨n, hn⟩ := hfair.exists_le_count 255
  refine ⟨n, fun m hm => ?_⟩
  obtain ⟨hdt, hst⟩ := decay_timers_toNat ticks hrun m
  have hcount := hn m hm
  exact ⟨BitVec.eq_of_toNat_eq (hdt.trans (Nat.sub_eq_zero_of_le (by omega))),
    BitVec.eq_of_toNat_eq (hst.trans (Nat.sub_eq_zero_of_le (by omega)))⟩

end Sys2Proof.Machine
end

section
/-! The index and memory family (44_index_memory.md R390 to R396). Fx33 and Fx55 are one block store of different
bytes, so what a store answers is said once for any block. -/

namespace Sys2Proof.Machine

/-! ### The index forms (R390 to R392) -/

/-- A change of PC and I alone. -/
theorem onlyIndex_set (s : State) (a i : Word) : OnlyIndex s { s with pc := a, i := i } :=
  ⟨fun _ _ => rfl, ⟨rfl, fun _ => rfl⟩, ⟨rfl, rfl⟩, fun _ _ => rfl, fun _ _ => rfl, rfl, rfl, rfl, rfl, rfl, rfl⟩

theorem wordOf_toNat (b : Byte) : (wordOf b).toNat = b.toNat :=
  BitVec.toNat_setWidth_of_le (by decide)

theorem indexSum_toNat (i : Word) (b : Byte) : (indexSum i b).toNat = (i.toNat + b.toNat) % 65536 := by
  rw [indexSum, BitVec.toNat_add, wordOf_toNat]

/-- The largest glyph address, 0x54B, fits in 16 bits. -/
theorem glyphAddress_toNat (b : Byte) : (glyphAddress b).toNat = 0x050 + 5 * b.toNat :=
  Nat.mod_eq_of_lt (by have := b.isLt; unfold fontBase; omega)

/-- Settles O28. -/
theorem loadIndex : Obligations.LoadIndex := by
  unfold Obligations.LoadIndex
  exact ⟨decodes_row (.ldINnn 0), fun nnn s => ⟨_, rfl, addrOf_toNat nnn, rfl, onlyIndex_set s _ _⟩⟩

/-- Settles O29. -/
theorem addIndexWraps : Obligations.AddIndexWraps := by
  unfold Obligations.AddIndexWraps
  exact ⟨decodes_row (.addIVx 0), fun x s => ⟨_, rfl, indexSum_toNat s.i (s.getV x), rfl, onlyIndex_set s _ _⟩⟩

/-- Settles O30. -/
theorem glyphAddressUnmasked : Obligations.GlyphAddressUnmasked := by
  unfold Obligations.GlyphAddressUnmasked
  exact ⟨decodes_row (.ldFVx 0), fun x s => ⟨_, rfl, glyphAddress_toNat (s.getV x), rfl, onlyIndex_set s _ _⟩⟩

/-- Settles O35: a fault changes only STATUS, and within the bounds of `Effect` only these three forms change I. -/
theorem indexChangedOnlyByThree : Obligations.IndexChangedOnlyByThree := by
  unfold Obligations.IndexChangedOnlyByThree
  intro i s t h hld hadd hglyph
  rcases exec_cases i s t h with ⟨c, n, rfl, _⟩ | heffect
  · exact s.raise_i ⟨c, n⟩
  · rcases heffect.index with hkept | ⟨n, hi⟩ | ⟨x, hi⟩ | ⟨x, hi⟩
    · exact hkept
    · exact absurd hi (hld n)
    · exact absurd hi (hadd x)
    · exact absurd hi (hglyph x)

/-! ### A block store at I (R393, R394) -/

/-- The state a completing store of the bytes `bs` at I leaves. -/
def State.afterStore (s : State) (bs : List Byte) : State := { s.advance with mem := s.mem.place s.base bs }

section
variable (s : State) {bs : List Byte}

/-- A stored byte reads back. -/
theorem State.afterStore_read {k : Nat} (hk : k < bs.length) :
    (s.afterStore bs).mem.read (s.i.toNat + k) = bs.getD k 0 := by
  change (s.mem.place s.i.toNat bs).read _ = _
  rw [Memory.read_place, if_pos (by omega), Nat.add_sub_cancel_left]

/-- A store changes nothing outside its block. -/
theorem State.afterStore_frame {P : Nat → Prop} (hP : ∀ a, s.i.toNat ≤ a ∧ a < s.i.toNat + bs.length → P a) :
    OnlyBytes P s (s.afterStore bs) :=
  ⟨fun _ _ => rfl, rfl, ⟨rfl, fun _ => rfl⟩, ⟨rfl, rfl⟩,
    fun a ha => (Memory.read_place _ _ _ a).trans (if_neg (mt (hP a) ha)), fun _ _ => rfl,
    rfl, rfl, rfl, rfl, rfl, rfl⟩

theorem finish_store_writable (h : ∀ k < bs.length, s.Writable (s.i.toNat + k)) :
    s.finish (s.advance.memWrites s.base bs) = .next (s.afterStore bs) :=
  congrArg s.finish (s.advance.memWrites_ok s.base bs h)

theorem finish_store_unwritable {k : Nat} (hk : k < bs.length) (hf : ¬ s.Writable (s.i.toNat + k))
    (hl : ∀ j < k, s.Writable (s.i.toNat + j)) :
    s.finish (s.advance.memWrites s.base bs) =
      .next (s.raise ⟨if s.i.toNat + k > 0xFFF then .memoryOutOfRange else .protectedWrite, s.i.toNat + k⟩) :=
  congrArg s.finish (s.advance.memWrites_error s.base bs k hk hf hl)

end

/-! ### LD B,Vx (R393) -/

/-- The digits in order; the hundreds of a byte are at most 2. -/
theorem bcdDigits_toNat (b : Byte) :
    ((bcdDigits b).getD 0 0).toNat = b.toNat / 100 ∧ ((bcdDigits b).getD 1 0).toNat = b.toNat / 10 % 10 ∧
      ((bcdDigits b).getD 2 0).toNat = b.toNat % 10 := by
  have := b.isLt
  exact ⟨Nat.mod_eq_of_lt (by omega), Nat.mod_eq_of_lt (by omega), Nat.mod_eq_of_lt (by omega)⟩

/-- Settles O31: the block store of three digits. -/
theorem bcdStore : Obligations.BcdStore := by
  unfold Obligations.BcdStore
  refine ⟨decodes_row (.ldBVx 0), fun x s => ⟨fun hw => ?_, fun k hk hf hl => ?_⟩⟩
  · have hread (k : Nat) (hk : k < 3) := s.afterStore_read (bs := bcdDigits (s.getV x)) hk
    obtain ⟨hhundreds, htens, hunits⟩ := bcdDigits_toNat (s.getV x)
    exact ⟨_, finish_store_writable s hw, (congrArg _ (hread 0 (by decide))).trans hhundreds,
      (congrArg _ (hread 1 (by decide))).trans htens, (congrArg _ (hread 2 (by decide))).trans hunits, rfl,
      s.afterStore_frame fun _ ha => ha⟩
  · exact ⟨_, finish_store_unwritable s (bs := bcdDigits (s.getV x)) hk hf hl, faultsWith_raise s _ _⟩

/-! ### LD [I],Vx and LD Vx,[I] (R394, R395) -/

/-- The bytes at I to I+x. -/
def State.blockUpTo (s : State) (x : Reg) : List Byte :=
  (List.range (x.val + 1)).map fun r => s.mem.read (s.base + r)

/-- The state a completing LD Vx,[I] leaves. -/
def State.afterLoad (s : State) (x : Reg) : State := s.advance.loadRegs 0 (s.blockUpTo x)

section
variable (s : State) (x : Reg)

theorem exec_ldMemVx_writable (h : ∀ k ≤ x.val, s.Writable (s.i.toNat + k)) :
    exec (.ldMemVx x) s = .next (s.afterStore (s.regsUpTo x)) :=
  finish_store_writable s fun k hk => h k (by rw [s.regsUpTo_length] at hk; omega)

theorem exec_ldMemVx_unwritable {k : Nat} (hk : k ≤ x.val) (hf : ¬ s.Writable (s.i.toNat + k))
    (hl : ∀ j < k, s.Writable (s.i.toNat + j)) :
    exec (.ldMemVx x) s =
      .next (s.raise ⟨if s.i.toNat + k > 0xFFF then .memoryOutOfRange else .protectedWrite, s.i.toNat + k⟩) :=
  finish_store_unwritable s (by rw [s.regsUpTo_length]; omega) hf hl

/-- A dumped register's byte. -/
theorem State.afterStore_regsUpTo_read {r : Reg} (hr : r ≤ x) :
    (s.afterStore (s.regsUpTo x)).mem.read (s.i.toNat + r.val) = s.getV r := by
  rw [s.afterStore_read (by rw [s.regsUpTo_length]; exact Nat.lt_succ_of_le hr), s.regsUpTo_getD x r hr]

theorem State.blockUpTo_length : (s.blockUpTo x).length = x.val + 1 := by simp [State.blockUpTo]

theorem State.blockUpTo_getD {r : Nat} (hr : r ≤ x.val) :
    (s.blockUpTo x).getD r 0 = s.mem.read (s.i.toNat + r) := by
  simp [State.blockUpTo, State.base, List.getD_eq_getElem?_getD, Nat.lt_succ_of_le hr]

theorem exec_ldVxMem_readable (h : s.i.toNat + x.val ≤ 0xFFF) :
    exec (.ldVxMem x) s = .next (s.afterLoad x) := by
  have hread : s.memReads s.base (x.val + 1) = .ok (s.blockUpTo x) :=
    s.memReads_ok s.base (x.val + 1) fun k hk => by unfold State.base; omega
  simp only [exec, execLdVxMem, hread, State.finish_ok, State.afterLoad]

theorem exec_ldVxMem_outOfRange {k : Nat} (hk : k ≤ x.val) (hout : 0xFFF < s.i.toNat + k)
    (hlow : ∀ j < k, s.i.toNat + j ≤ 0xFFF) :
    exec (.ldVxMem x) s = .next (s.raise ⟨.memoryOutOfRange, s.i.toNat + k⟩) := by
  have hread : s.memReads s.base (x.val + 1) = .error ⟨.memoryOutOfRange, s.i.toNat + k⟩ :=
    s.memReads_error s.base (x.val + 1) k (Nat.lt_succ_of_le hk) hout hlow
  simp only [exec, execLdVxMem, hread, State.finish_error]

/-- The registers after a load. -/
theorem State.afterLoad_getV (r : Reg) :
    (s.afterLoad x).getV r = if r ≤ x then s.mem.read (s.i.toNat + r.val) else s.getV r := by
  have hlen := s.blockUpTo_length x
  rw [State.afterLoad, State.loadRegs_getV _ _ _ (by omega), hlen, State.advance_getV]
  by_cases hr : r.val ≤ x.val
  · rw [if_pos (by omega), if_pos (Fin.le_def.mpr hr), Nat.sub_zero, s.blockUpTo_getD x hr]
  · rw [if_neg (by omega), if_neg (mt Fin.le_def.mp hr)]

theorem State.afterLoad_frame : OnlyRegs (fun r => r ≤ x) s (s.afterLoad x) :=
  onlyRegs_of_advance (s.advance.loadRegs_frame 0 _) fun r hr => (s.afterLoad_getV x r).trans (if_neg hr)

theorem State.afterLoad_pc : (s.afterLoad x).pc = s.pc + 2 := by
  obtain ⟨w, hw⟩ := s.advance.loadRegs_frame 0 (s.blockUpTo x)
  rw [State.afterLoad, hw, State.advance_pc]

end

/-- Settles O32: the block store of V0 to Vx. -/
theorem registerDump : Obligations.RegisterDump := by
  unfold Obligations.RegisterDump
  refine ⟨decodes_row (.ldMemVx 0), fun x s => ⟨fun hw => ?_, fun k hk hf hl => ?_⟩⟩
  · refine ⟨_, exec_ldMemVx_writable s x hw, fun r => s.afterStore_regsUpTo_read x, rfl,
      s.afterStore_frame fun a ha => ?_⟩
    rw [s.regsUpTo_length] at ha
    omega
  · exact ⟨_, exec_ldMemVx_unwritable s x hk hf hl, faultsWith_raise s _ _⟩

/-- Settles O33: the whole block is read before the first register is written. -/
theorem registerLoad : Obligations.RegisterLoad := by
  unfold Obligations.RegisterLoad
  refine ⟨decodes_row (.ldVxMem 0), fun x s => ⟨fun hread => ?_, fun k hk hout hlow => ?_⟩⟩
  · exact ⟨_, exec_ldVxMem_readable s x hread, fun r hr => (s.afterLoad_getV x r).trans (if_pos hr),
      s.afterLoad_pc x, s.afterLoad_frame x⟩
  · exact ⟨_, exec_ldVxMem_outOfRange s x hk hout hlow, faultsWith_raise s _ _⟩

/-- Settles O34: a writable block is readable, and the load reads what the dump wrote. -/
theorem dumpThenLoad : Obligations.DumpThenLoad := by
  unfold Obligations.DumpThenLoad
  intro x s hw
  refine ⟨_, exec_ldMemVx_writable s x hw, fun u hi hmem => ?_⟩
  have hreadable : u.i.toNat + x.val ≤ 0xFFF := hi ▸ (hw x.val le_rfl).1
  refine ⟨_, exec_ldVxMem_readable u x hreadable, fun q hq => ?_⟩
  calc (u.afterLoad x).getV q
      _ = u.mem.read (s.i.toNat + q.val) := by rw [u.afterLoad_getV, if_pos hq, hi]
      _ = (s.afterStore (s.regsUpTo x)).mem.read (s.i.toNat + q.val) := hmem q.val hq
      _ = s.getV q := s.afterStore_regsUpTo_read x hq

end Sys2Proof.Machine
end

section
/-! Faults and the end of a run (60_exceptions.md R501, R506, R513): which form raises which fault, what a step does
with an unknown word, and quit. -/

namespace Sys2Proof.Machine

/-- Settles O51: an instruction's effect keeps STATUS, so one that ends the run took a fault of its own. -/
theorem onlyListedFaults : Obligations.OnlyListedFaults := by
  unfold Obligations.OnlyListedFaults
  intro i s t hrun hexec hend
  rcases exec_cases i s t hexec with ⟨code, info, rfl, hraise⟩ | heffect
  · exact ⟨code, info, s.raise_status _, hraise⟩
  · obtain ⟨hstatus, _⟩ := heffect.run
    exact absurd (hstatus.trans hrun) hend

theorem cpuStep_of_unknown {s : State} {w : Word} {r : Reject} (hf : s.fetch = .ok w)
    (hd : decodeWord w = .error r) : cpuStep s = execUnknown w s := by
  simp only [cpuStep, hf, hd]

/-- Settles O45: by the two policies of `execUnknown_cases`. -/
theorem unknownWordExecution : Obligations.UnknownWordExecution := by
  unfold Obligations.UnknownWordExecution
  intro s w e hf hd
  rw [cpuStep_of_unknown hf hd]
  rcases execUnknown_cases w s with ⟨hfault, hexec⟩ | ⟨hnop, hexec⟩
  · exact ⟨fun _ => ⟨_, hexec, faultsWith_raise s _ _⟩, fun hnop => (nomatch hfault.symm.trans hnop)⟩
  · exact ⟨fun hfault => (nomatch hfault.symm.trans hnop),
      fun _ => ⟨_, hexec, s.advance_pc, onlyRegs_setPc s _⟩⟩

theorem step_of_quit {s : State} {rest : List HostEvent} (hrun : s.status = .running)
    (he : s.events = .quit :: rest) : step s = .next ({ s with events := rest } : State).quit := by
  simp only [step_of_running hrun, State.turn, he]

/-- Settles O53: a step needs a RUNNING machine, and the quit left it TERMINATED. -/
theorem quitTerminates : Obligations.QuitTerminates := by
  unfold Obligations.QuitTerminates
  intro s rest hrun he
  exact ⟨_, step_of_quit hrun he, rfl, fun u hstep => nomatch status_of_step_next hstep⟩

end Sys2Proof.Machine
end

section
/-! Reset with any ROM, the order of an iteration, and PARKED (70_reset_and_hazards.md R600, R601, R603, R607). -/

namespace Sys2Proof.Machine

/-! ### The iteration (R603) -/

/-- Settles O25: the tick acts on the state the CPU step answers, and `tickDecrementsBoth` says what it does. -/
theorem iterationOrder : Obligations.IterationOrder := by
  unfold Obligations.IterationOrder
  intro s u keysIn tick rnd hstep
  obtain ⟨hticks, hstays, honly, hpc⟩ := tickDecrementsBoth u tick
  refine ⟨u.tickIf tick, iterate_next_iff.mpr ⟨u, hstep, rfl⟩, u.tickIf_keys tick, hpc, honly,
    fun ⟨hrun, htick⟩ => hticks hrun htick, fun hno => ?_⟩
  have hsame : u.tickIf tick = u := hstays ((not_and_or.mp hno).imp_right eq_false_of_ne_true)
  rw [hsame]
  exact ⟨rfl, rfl⟩

/-! ### PARKED (R607) -/

/-- The instruction a machine PARKED at its PC fetches is the jump to that PC. -/
theorem State.Parked.fetch {s : State} {h : Nat} (hparked : s.Parked h) :
    s.fetch = .ok (encode (.jpNnn (s.pc.setWidth 12))) := by
  obtain ⟨_, rfl, heven, hle, hword⟩ := hparked
  refine State.fetch_of_toNat heven hle ?_
  rw [hword, encode, formatA_toNat, BitVec.toNat_setWidth, Nat.mod_eq_of_lt (by omega : s.pc.toNat < 2 ^ 12)]
  rfl

/-- Jumping back to the instruction's own address undoes the advance. -/
@[simp] theorem State.jump_advance_pc (s : State) : s.advance.jump s.pc = s := rfl

/-- A jump to its own address changes nothing (R206). -/
theorem exec_jp_self {s : State} (h : s.pc.toNat < 0x1000) : exec (.jpNnn (s.pc.setWidth 12)) s = .next s := by
  have htarget : addrOf (s.pc.setWidth 12) = s.pc := by unfold addrOf; bv_omega
  simp only [exec, execJpNnn, htarget, State.jump_advance_pc]

/-- From a PARKED state an iteration is its poll and its tick alone. -/
theorem State.Parked.iterate {s : State} {h : Nat} (hparked : s.Parked h) (keysIn : Keys) (tick : Bool)
    (rnd : Byte) : s.iterate keysIn tick rnd = .next ((s.poll keysIn rnd).tickIf tick) := by
  have hlt : s.pc.toNat < 0x1000 := by
    obtain ⟨_, rfl, _, hle, _⟩ := hparked
    omega
  exact iterate_of_decode hparked.fetch (decodeWord_encode _) (exec_jp_self (s := s.poll keysIn rnd) hlt)

/-- Settles O58: neither the poll nor the tick touches what PARKED reads. -/
theorem parkedStaysParked : Obligations.ParkedStaysParked := by
  unfold Obligations.ParkedStaysParked
  exact fun s h keysIn tick rnd hparked => ⟨_, hparked.iterate keysIn tick rnd, hparked, rfl⟩

/-! ### Reset with any ROM and any parameters (R600, R601) -/

theorem State.load_unreadable (p : Config.ResetParams) : State.load p none = .error ⟨.romLoadError, none⟩ := rfl

/-- The memory that reset leaves: FONT's bytes, then the ROM's (R600). -/
def loadedMemory (p : Config.ResetParams) (rom : List Byte) : Memory :=
  (Memory.place [] fontBase p.font.toList).place programBase rom

section
variable (p : Config.ResetParams) {rom : List Byte}

theorem State.load_too_long (h : 3584 < rom.length) :
    State.load p (some rom) = .error ⟨.romLoadError, some rom.length⟩ :=
  if_pos h

theorem State.load_fits (h : rom.length ≤ 3584) :
    State.load p (some rom) =
      .ok { State.reset with policy := p.policies, pc := p.entryPc, mem := loadedMemory p rom } :=
  if_neg (Nat.not_lt.mpr h)

theorem loadedMemory_wf (h : rom.length ≤ 3584) : (loadedMemory p rom).wf = true := by
  have hfont : (Memory.place [] fontBase p.font.toList).wf = true :=
    Memory.wf_place rfl (by simp [fontBase, memSize])
  exact Memory.wf_place hfont (by simp only [programBase, memSize]; omega)

/-- Below the ROM and above it, memory is as FONT's copy left it. -/
theorem loadedMemory_read_outside_rom {a : Nat} (h : ¬ (0x200 ≤ a ∧ a < 0x200 + rom.length)) :
    (loadedMemory p rom).read a = (Memory.place [] fontBase p.font.toList).read a :=
  (Memory.read_place _ _ _ a).trans (if_neg h)

theorem loadedMemory_read_rom {k : Nat} (h : k < rom.length) : (loadedMemory p rom).read (0x200 + k) = rom[k] := by
  rw [loadedMemory, programBase, Memory.read_place, if_pos (by omega), Nat.add_sub_cancel_left,
    List.getD_eq_getElem _ _ h]

theorem loadedMemory_read_font (k : Fin 80) : (loadedMemory p rom).read (0x050 + k.val) = p.font[k] := by
  have hk : k.val < p.font.toList.length := by simp
  rw [loadedMemory_read_outside_rom p (by omega), fontBase, Memory.read_place, if_pos (by omega),
    Nat.add_sub_cancel_left, List.getD_eq_getElem _ _ hk, Vector.getElem_toList]
  rfl

/-- FONT covers the whole glyph region, and every other address outside the ROM is unlisted. -/
theorem loadedMemory_read_elsewhere {a : Nat} (hfont : ¬ (0x050 ≤ a ∧ a ≤ 0x09F))
    (hrom : ¬ (0x200 ≤ a ∧ a < 0x200 + rom.length)) : (loadedMemory p rom).read a = 0 := by
  have hlength : p.font.toList.length = 80 := p.font.length_toList
  rw [loadedMemory_read_outside_rom p hrom, fontBase, Memory.read_place, if_neg (by omega)]
  exact Memory.initial_outside_glyphs hfont

end

/-- Settles O55: `load` changes of the reset state only the parameters, PC and memory. -/
theorem romLoadContract : Obligations.RomLoadContract := by
  unfold Obligations.RomLoadContract
  refine fun p => ⟨State.load_unreadable p, fun rom => ⟨State.load_too_long p, fun hfits => ?_⟩⟩
  exact ⟨_, State.load_fits p hfits, rfl, rfl, rfl, loadedMemory_wf p hfits, loadedMemory_read_font p,
    fun _ => loadedMemory_read_rom p, fun _ => loadedMemory_read_elsewhere p, State.reset_getV, rfl, rfl,
    State.reset_stack_get, rfl, rfl, Display.pixel_off, State.reset_keys_get⟩

end Sys2Proof.Machine
end
